-- ==== Sys2Proof/Word.lean ====
section
/-!
DEFINITION. The word types of the core (spec 00_scope.md R6, R9).
-/

namespace Sys2Proof

/-- A memory byte, a data register, a port number or a port value: 8 bits (R6). -/
abbrev Byte := BitVec 8

/-- An address or the program counter: 16 bits (R6). -/
abbrev Addr := BitVec 16

/-- The offset of a display write: 12 bits, 0x000 to 0xFFF (R9, 20_memory.md R57). -/
abbrev DispOffset := BitVec 12

end Sys2Proof
end

