-- ==== Sys2Proof/Config.lean ====
section
/-!
DEFINITION. The open parameters of the spec (00_scope.md R7) and the values it leaves open, as opaque constants:
nothing in Lean can prove a value of one, so a claim holds for every value the spec allows.
-/

namespace Sys2Proof

/-- The entries of the cycle-cost table `CYC` (spec 70_reset_and_hazards.md R205). -/
inductive CycEntry where
  | ldaImm | ldaZp | staZp | staAbs | adcImm | sbcImm | incZp | cmpImm | bneNotTaken | bneTaken | sec
deriving DecidableEq, Repr

namespace Config

/-- Any natural for each entry; `cyc` turns it into a table that meets R205 (log entry 4). -/
opaque cycExcess : CycEntry → Nat

/-- The display's width less one (log entry 5). -/
opaque dispWidthLessOne : Nat

/-- The display's height less one (log entry 5). -/
opaque dispHeightLessOne : Nat

/-- `A0`, the accumulator at power-on (10_state.md R40; log entry 3). -/
opaque a0 : Byte

/-- `X0`, index X at power-on (10_state.md R40; log entry 3). -/
opaque x0 : Byte

/-- `Y0`, index Y at power-on (10_state.md R40; log entry 3). -/
opaque y0 : Byte

/-- PC before the first reset, which holds no defined value (10_state.md R40; log entry 2). -/
opaque pcPowerOn : Addr

/-- SP before the first reset, which holds no defined value (10_state.md R40; log entry 2). -/
opaque spPowerOn : Byte

/-- P before the first reset, which holds no defined value (10_state.md R40; log entry 2). -/
opaque pPowerOn : Byte

/-- The open cycle-cost table `CYC`: every entry positive, and a taken BNE dearer than a BNE not taken
(70_reset_and_hazards.md R205). Every table the rule allows is `cyc` for some `cycExcess`. -/
def cyc : CycEntry → Nat
  | .bneTaken => cycExcess .bneNotTaken + 1 + (cycExcess .bneTaken + 1)
  | e => cycExcess e + 1

/-- `DISP_W`, a positive natural (00_scope.md R7). -/
def dispW : Nat := dispWidthLessOne + 1

/-- `DISP_H`, a positive natural (00_scope.md R7). -/
def dispH : Nat := dispHeightLessOne + 1

/-- `DISP_CELLS = DISP_W * DISP_H` (00_scope.md R7). -/
def dispCells : Nat := dispW * dispH

end Config

end Sys2Proof
end

