-- ==== Sys2Proof/Machine/State.lean ====
section
/-!
DEFINITION. The whole state of the machine (spec 10_state.md R37, R38), why a step can stop, and the two initial states:
`State.powerOn`, before the first reset, and `State.reset`, right after it with nothing loaded.
-/

namespace Sys2Proof.Machine

/-- A flag of the status register (10_state.md R27). -/
inductive Flag where
  | c | z | i | d | b | v | n
deriving DecidableEq, Repr

/-- The run state of the state machine (10_state.md R35). -/
inductive RunState where
  /-- Power-on, before the first reset. -/
  | notReset
  | running
  /-- The halt instruction executed. -/
  | halted
  /-- Decoding failed on this byte. -/
  | faulted (b : Byte)
deriving DecidableEq, Repr

/-- The outcome a step answers (00_scope.md R10). -/
inductive Answer where
  /-- The instruction executed; its cycle cost. -/
  | ok (cost : Nat)
  | halted
  | decodeFailure (b : Byte)
deriving DecidableEq, Repr

/-- An output of the I/O controller to the host (60_exceptions.md R185, R186). -/
inductive OutEvent where
  | numericOut (v : Byte)
  | charOut (v : Byte)
deriving DecidableEq, Repr

/-- A transaction of the core on its outgoing ports (00_scope.md R9). -/
inductive Access where
  /-- `MemRead(addr, 1)` and the byte it returned. -/
  | memRead (a : Addr) (v : Byte)
  /-- `MemWrite(addr, 1, v)`. -/
  | memWrite (a : Addr) (v : Byte)
  /-- `DispWrite(off, v)`. -/
  | dispWrite (off : DispOffset) (v : Byte)
  /-- `PortWrite(p, v)`. -/
  | portWrite (p v : Byte)
deriving DecidableEq, Repr

/-- Raw memory (20_memory.md R46): the bytes that are not zero, by address. -/
structure Memory where
  cells : List Host.Cell
deriving DecidableEq, Repr

/-- The display buffer (60_exceptions.md R181): the cells that are not 0x20, by linear offset. -/
structure DispBuffer where
  cells : List Host.Cell
deriving DecidableEq, Repr

/-- The I/O controller's port map (60_exceptions.md R185): the ports ever written, with their values. -/
structure PortMap where
  cells : List Host.Cell
deriving DecidableEq, Repr

/-- The whole-machine state (10_state.md R38), and the block's outputs. -/
structure State where
  /-- Program counter (10_state.md R24). -/
  pc : Addr
  /-- Stack pointer, used by no instruction (10_state.md R36). -/
  sp : Byte
  /-- Accumulator (10_state.md R21). -/
  a : Byte
  /-- Index X, used by no instruction (10_state.md R22). -/
  x : Byte
  /-- Index Y, used by no instruction (10_state.md R22). -/
  y : Byte
  /-- Status register (10_state.md R27). -/
  p : Byte
  /-- Run state (10_state.md R35). -/
  run : RunState
  /-- Raw memory (20_memory.md R46). -/
  mem : Memory
  /-- The display's cells (60_exceptions.md R181). -/
  disp : DispBuffer
  /-- The display's dirty flag (60_exceptions.md R182). -/
  dirty : Bool
  /-- The I/O controller's port map (60_exceptions.md R185). -/
  ports : PortMap
  /-- The I/O controller's write log of (port, value), oldest first (60_exceptions.md R185). -/
  iolog : List (Byte × Byte)
  /-- The I/O controller's input queue, oldest first (60_exceptions.md R188). -/
  inq : List Byte
  /-- Output: what the output channels emitted since creation, oldest first (60_exceptions.md R186; log entry 7). -/
  events : List OutEvent
  /-- Output: what the latest step answered, none before the first (00_scope.md R10; log entry 1). -/
  answer : Option Answer
  /-- Output: the transactions of the latest step, in order (00_scope.md R9, 20_memory.md R70; log entry 8). -/
  trace : List Access
deriving DecidableEq, Repr

/-- Why the machine stops with a fault. Nobody raises one, so there is no constructor: the spec's one exception leaves a
state it describes, which a step answers as a next state, and nothing else faults (60_exceptions.md R171, R173). -/
inductive Fault where
deriving DecidableEq, Repr

/-- Why a step has no meaning. -/
inductive Refusal where
  /-- Raised by `exec` for an instruction that has no meaning yet; safe. No arm of `exec` answers it. -/
  | notModelled (mnemonic : String)
  /-- Raised by `step` before the first reset, where the spec refuses a step and a model has none (42_control.md R150);
  safe. -/
  | notReset
deriving DecidableEq, Repr

/-- Power-on: before the first reset, the devices at their creation values (10_state.md R40). -/
def State.powerOn : State where
  pc := Config.pcPowerOn
  sp := Config.spPowerOn
  a := Config.a0
  x := Config.x0
  y := Config.y0
  p := Config.pPowerOn
  run := .notReset
  mem := ⟨[]⟩
  disp := ⟨[]⟩
  dirty := false
  ports := ⟨[]⟩
  iolog := []
  inq := []
  events := []
  answer := none
  trace := []

/-- Right after the first reset, with nothing loaded: PC is the vector of zeroed memory (70_reset_and_hazards.md R212), SP,
P and the run state are those of 10_state.md R41, all else stands as at power-on. Log entries 3 and 10. -/
def State.reset : State where
  pc := 0x0000#16
  sp := 0xFF#8
  a := Config.a0
  x := Config.x0
  y := Config.y0
  p := 0x20#8
  run := .running
  mem := ⟨[]⟩
  disp := ⟨[]⟩
  dirty := false
  ports := ⟨[]⟩
  iolog := []
  inq := []
  events := []
  answer := none
  trace := []

end Sys2Proof.Machine
end

