-- ==== Sys2Proof/Machine/Flags.lean ====
section
/-!
DEFINITION. The status register's flags (spec 10_state.md R27) and the ALU's results and flags (41_arithmetic.md). Results
and carries are computed on exact integers and narrowed at the end (00_scope.md R12, 41_arithmetic.md R122).
-/

namespace Sys2Proof.Machine

/-- The bit of P that holds a flag (10_state.md R27). -/
def flagBit : Flag → Nat
  | .c => 0
  | .z => 1
  | .i => 2
  | .d => 3
  | .b => 4
  | .v => 6
  | .n => 7

/-- The mask of a flag in P (10_state.md R27). -/
def flagMask : Flag → Byte
  | .c => 0x01#8
  | .z => 0x02#8
  | .i => 0x04#8
  | .d => 0x08#8
  | .b => 0x10#8
  | .v => 0x40#8
  | .n => 0x80#8

/-- Reads one flag of a status byte. -/
def readFlag (p : Byte) (f : Flag) : Bool := p.getLsbD (flagBit f)

/-- Writes one flag of a status byte and no other bit (00_scope.md R13). -/
def writeFlag (p : Byte) (f : Flag) (on : Bool) : Byte :=
  if on then p ||| flagMask f else p &&& ~~~flagMask f

/-- A flag of the state's status register. -/
def State.flag (s : State) (f : Flag) : Bool := readFlag s.p f

/-- `P.F <- b` (00_scope.md R13). -/
def State.setFlag (s : State) (f : Flag) (on : Bool) : State := { s with p := writeFlag s.p f on }

/-- `P.Z` of a result (41_arithmetic.md R120). -/
def zeroFlag (v : Byte) : Bool := decide (v = 0#8)

/-- `P.N` of a result: its bit 7 (41_arithmetic.md R120). -/
def negativeFlag (v : Byte) : Bool := v.getLsbD 7

/-- `SetZN(v)` (41_arithmetic.md R120). -/
def State.setZN (s : State) (v : Byte) : State := (s.setFlag .z (zeroFlag v)).setFlag .n (negativeFlag v)

/-- The exact sum of ADC, 0 to 511 (41_arithmetic.md R125). -/
def adcSum (a m : Byte) (carry : Bool) : Nat := a.toNat + m.toNat + carry.toNat

/-- ADC's result: the low 8 bits of the sum (41_arithmetic.md R125). -/
def adcResult (a m : Byte) (carry : Bool) : Byte := BitVec.ofNat 8 (adcSum a m carry)

/-- ADC's carry out: the sum exceeds 0xFF (41_arithmetic.md R126). -/
def adcCarry (a m : Byte) (carry : Bool) : Bool := decide (adcSum a m carry > 0xFF)

/-- ADC's overflow: operands of one sign, a result of the other (41_arithmetic.md R126). -/
def adcOverflow (a m : Byte) (carry : Bool) : Bool :=
  a.getLsbD 7 == m.getLsbD 7 && (adcResult a m carry).getLsbD 7 != a.getLsbD 7

/-- The exact difference of SBC, -256 to 255, of unsigned operands (41_arithmetic.md R130). -/
def sbcDiff (a m : Byte) (carry : Bool) : Int := (a.toNat : Int) - (m.toNat : Int) - (1 - (carry.toNat : Int))

/-- SBC's result: the low 8 bits of the difference (41_arithmetic.md R130). -/
def sbcResult (a m : Byte) (carry : Bool) : Byte := BitVec.ofInt 8 (sbcDiff a m carry)

/-- SBC's carry out: no borrow occurred (41_arithmetic.md R131). -/
def sbcCarry (a m : Byte) (carry : Bool) : Bool := decide (0 ≤ sbcDiff a m carry)

/-- SBC's overflow: operands of different signs, a result not of the accumulator's (41_arithmetic.md R131). -/
def sbcOverflow (a m : Byte) (carry : Bool) : Bool :=
  a.getLsbD 7 != m.getLsbD 7 && (sbcResult a m carry).getLsbD 7 != a.getLsbD 7

/-- CMP's difference with 8-bit wraparound (41_arithmetic.md R139). -/
def cmpResult (a m : Byte) : Byte := BitVec.ofInt 8 ((a.toNat : Int) - (m.toNat : Int))

/-- CMP's carry: `A >= m` as unsigned bytes (41_arithmetic.md R140). -/
def cmpCarry (a m : Byte) : Bool := decide (m.toNat ≤ a.toNat)

/-- INC's result: one more, modulo 256 (41_arithmetic.md R135). -/
def incResult (v : Byte) : Byte := BitVec.ofNat 8 (v.toNat + 1)

end Sys2Proof.Machine
end

