-- ==== Sys2Proof/Machine/Bytes.lean ====
section
/-!
DEFINITION. Byte order and extension: the little-endian pairing of two bytes (spec 20_memory.md R49) and the zero and
sign extensions of 00_scope.md R12.
-/

namespace Sys2Proof.Machine

/-- `hi:lo`, the 16-bit value of a low and a high byte (00_scope.md R11, 20_memory.md R49). -/
def wordOf (lo hi : Byte) : Addr := hi ++ lo

/-- Bits 7 to 0 of a 16-bit value. -/
def lowByte (w : Addr) : Byte := w.extractLsb' 0 8

/-- Bits 15 to 8 of a 16-bit value. -/
def highByte (w : Addr) : Byte := w.extractLsb' 8 8

/-- `zext_16` (00_scope.md R12). -/
def zext16 (b : Byte) : Addr := b.setWidth 16

/-- `sext_16` (00_scope.md R12). -/
def sext16 (b : Byte) : Addr := b.signExtend 16

end Sys2Proof.Machine
end

