-- ==== Sys2Proof/Machine/Operands.lean ====
section
/-!
DEFINITION. Operand forms (spec 30_encoding.md R86 to R89). The immediate byte and the assembled absolute address are used
as they are; the zero-page address and the branch target are computed here.
-/

namespace Sys2Proof.Machine

/-- The effective address of a zero-page operand: the byte zero-extended (R87). -/
def zpAddr (zp : Byte) : Addr := zext16 zp

/-- The target of a taken branch: the sign-extended offset added, modulo 65536, to the address after the branch (R89,
42_control.md R155). -/
def branchTarget (next : Addr) (rel : Byte) : Addr := next + sext16 rel

end Sys2Proof.Machine
end

