-- ==== Sys2Proof/Machine/Cells.lean ====
section
/-!
DEFINITION. Sparse stores of bytes by number, kept as a list of `Host.Cell` in one canonical form: the shape of the raw
memory, the display buffer and the port map. The reading and writing laws hold of every list, the canonical form is kept.
-/

namespace Sys2Proof.Machine

/-- The byte listed at a number, if any. -/
def cellFind : List Host.Cell → Nat → Option Byte
  | [], _ => none
  | c :: rest, k => if c.1 = k then some c.2 else cellFind rest k

/-- The list without any entry at a number. -/
def cellErase : List Host.Cell → Nat → List Host.Cell
  | [], _ => []
  | c :: rest, k => if c.1 = k then cellErase rest k else c :: cellErase rest k

/-- The list with an entry put before the first entry of a higher number. -/
def cellInsert : List Host.Cell → Nat → Byte → List Host.Cell
  | [], k, v => [(k, v)]
  | c :: rest, k, v => if k < c.1 then (k, v) :: c :: rest else c :: cellInsert rest k v

/-- The list with the one entry at a number set to a byte. -/
def cellPut (l : List Host.Cell) (k : Nat) (v : Byte) : List Host.Cell := cellInsert (cellErase l k) k v

/-- What a number reads as, where an unlisted number reads as `d`. -/
def cellRead (d : Byte) (l : List Host.Cell) (k : Nat) : Byte := (cellFind l k).getD d

/-- The list after writing a byte, where an unlisted number reads as `d`: writing `d` removes the entry. -/
def cellWrite (d : Byte) (l : List Host.Cell) (k : Nat) (v : Byte) : List Host.Cell :=
  if v = d then cellErase l k else cellPut l k v

/-- The numbers of the entries strictly rise. -/
def cellsRising : List Host.Cell → Bool
  | [] => true
  | [_] => true
  | c :: c' :: rest => decide (c.1 < c'.1) && cellsRising (c' :: rest)

/-- Every entry's number lies below a bound. -/
def cellsBelow (bound : Nat) (l : List Host.Cell) : Bool := l.all fun c => decide (c.1 < bound)

/-- No entry holds the byte that an unlisted number reads as. -/
def cellsListed (d : Byte) (l : List Host.Cell) : Bool := l.all fun c => decide (c.2 ≠ d)

end Sys2Proof.Machine
end

