-- ==== Sys2Proof/Machine/Ops.lean ====
section
/-!
DEFINITION. The named operations over memory, the register file and the run state: byte and word accesses (spec
20_memory.md), the core's accesses with their transactions, how a step ends, the decode-failure exception
(60_exceptions.md R171) and reset, the only way out of it (R177).
-/

namespace Sys2Proof.Machine

/-- What a byte of raw memory that nothing has written reads as: raw memory is zero-initialized (10_state.md R40). -/
def memUnlisted : Byte := 0x00#8

/-- The byte of raw memory at an address (20_memory.md R47). -/
def Memory.read (m : Memory) (a : Addr) : Byte := cellRead memUnlisted m.cells a.toNat

/-- Raw memory with one byte set (20_memory.md R48). -/
def Memory.write (m : Memory) (a : Addr) (v : Byte) : Memory := ⟨cellWrite memUnlisted m.cells a.toNat v⟩

/-- Raw memory's canonical form: addresses strictly rising and below 65536, no entry equal to an unlisted byte. -/
def Memory.wf (m : Memory) : Bool :=
  cellsRising m.cells && (cellsBelow 65536 m.cells && cellsListed memUnlisted m.cells)

/-- `MemRead(a, 1)`: it changes no state (20_memory.md R47). -/
def State.readByte (s : State) (a : Addr) : Byte := s.mem.read a

/-- `MemWrite(a, 1, v)`: it sets one byte and changes nothing else (20_memory.md R48). -/
def State.writeByte (s : State) (a : Addr) (v : Byte) : State := { s with mem := s.mem.write a v }

/-- `ReadWord(a)`, little-endian, the high byte's address wrapping (20_memory.md R51). -/
def State.readWord (s : State) (a : Addr) : Addr := wordOf (s.readByte a) (s.readByte (a + 1))

/-- `WriteWord(a, v)`, a host operation, little-endian, the high byte's address wrapping (20_memory.md R52). -/
def State.writeWord (s : State) (a v : Addr) : State := (s.writeByte a (lowByte v)).writeByte (a + 1) (highByte v)

/-- Notes a transaction of the core in the step's trace (00_scope.md R9). -/
def State.noteAccess (s : State) (t : Access) : State := { s with trace := s.trace ++ [t] }

/-- The core's read of a byte of raw memory, with its transaction. -/
def State.busRead (s : State) (a : Addr) : Byte × State :=
  (s.readByte a, s.noteAccess (.memRead a (s.readByte a)))

/-- The core's write of a byte of raw memory, with its transaction. -/
def State.busWrite (s : State) (a : Addr) (v : Byte) : State := (s.writeByte a v).noteAccess (.memWrite a v)

/-- `A <- v`. -/
def State.setA (s : State) (v : Byte) : State := { s with a := v }

/-- `PC <- v`. -/
def State.setPc (s : State) (v : Addr) : State := { s with pc := v }

/-- The step answers `Ok(CYC.e)` (42_control.md R152, 70_reset_and_hazards.md R205). -/
def State.answerOk (s : State) (e : CycEntry) : State := { s with answer := some (.ok (Config.cyc e)) }

/-- `signal Halt`: the halted state, and the answer `Halted` without a cost (42_control.md R164). -/
def State.signalHalt (s : State) : State := { s with run := .halted, answer := some .halted }

/-- Taking the core's one exception, `raise DecodeFailure(b)`: the run state latches the byte and the step answers it.
PC, already past the byte, stays; nothing is saved and control goes nowhere (60_exceptions.md R171, R176). -/
def State.raiseDecodeFailure (s : State) (b : Byte) : State :=
  { s with run := .faulted b, answer := some (.decodeFailure b) }

/-- The start of a step's outputs: no transaction yet. -/
def State.beginStep (s : State) : State := { s with trace := [] }

/-- A step in the halted state: nothing but the step's outputs changes (42_control.md R150; log entry 11). -/
def State.stepHalted (s : State) : State := { s.beginStep with answer := some .halted }

/-- A step in the faulted state: nothing but the step's outputs changes (42_control.md R150; log entry 11). -/
def State.stepFaulted (s : State) (b : Byte) : State := { s.beginStep with answer := some (.decodeFailure b) }

/-- The address of the reset vector (20_memory.md R66). -/
def resetVector : Addr := 0xFFFC#16

/-- The `reset` operation, in every run state, between steps: it writes PC, SP, P and the run state, and nothing else
(70_reset_and_hazards.md R200, R201). It is the only way out of the halted and the faulted state (60_exceptions.md R177). -/
def State.applyReset (s : State) : State :=
  { s with pc := s.readWord resetVector, sp := 0xFF#8, p := 0x20#8, run := .running }

end Sys2Proof.Machine
end

