-- ==== Sys2Proof/Machine/Arithmetic.lean ====
section
/-!
DEFINITION. The meanings of the arithmetic instructions (spec 41_arithmetic.md). A meaning runs with PC past the
instruction's bytes (10_state.md R24).
-/

namespace Sys2Proof.Machine

/-- `ADC #imm8` (R124 to R128). -/
def execAdcImm (imm : Byte) (s : State) : Host.Outcome State Fault Refusal :=
  let cin := s.flag .c
  let r := adcResult s.a imm cin
  let flagged := (s.setFlag .c (adcCarry s.a imm cin)).setFlag .v (adcOverflow s.a imm cin)
  .next (((flagged.setA r).setZN r).answerOk .adcImm)

/-- `SBC #imm8` (R129 to R133). -/
def execSbcImm (imm : Byte) (s : State) : Host.Outcome State Fault Refusal :=
  let cin := s.flag .c
  let r := sbcResult s.a imm cin
  let flagged := (s.setFlag .c (sbcCarry s.a imm cin)).setFlag .v (sbcOverflow s.a imm cin)
  .next (((flagged.setA r).setZN r).answerOk .sbcImm)

/-- `INC zp8`: reads, increments and writes back one byte of raw memory (R134 to R137). -/
def execIncZp (zp : Byte) (s : State) : Host.Outcome State Fault Refusal :=
  let got := s.busRead (zpAddr zp)
  let v := incResult got.1
  .next (((got.2.busWrite (zpAddr zp) v).setZN v).answerOk .incZp)

/-- `CMP #imm8`: flags only; the carry in is not read and overflow is not written (R138 to R141). -/
def execCmpImm (imm : Byte) (s : State) : Host.Outcome State Fault Refusal :=
  .next (((s.setZN (cmpResult s.a imm)).setFlag .c (cmpCarry s.a imm)).answerOk .cmpImm)

end Sys2Proof.Machine
end

