-- ==== Sys2Proof/Machine/Control.lean ====
section
/-!
DEFINITION. The meanings of the branch, set-carry and halt instructions (spec 42_control.md). A meaning runs with PC past
the instruction's bytes (10_state.md R24).
-/

namespace Sys2Proof.Machine

/-- `BNE rel8`: branches when the zero flag is clear (R154 to R157). -/
def execBne (rel : Byte) (s : State) : Host.Outcome State Fault Refusal :=
  if s.flag .z then .next (s.answerOk .bneNotTaken)
  else .next ((s.setPc (branchTarget s.pc rel)).answerOk .bneTaken)

/-- `SEC` (R159 to R161). -/
def execSec (s : State) : Host.Outcome State Fault Refusal :=
  .next ((s.setFlag .c true).answerOk .sec)

/-- `HLT`: a controlled termination (R162 to R165). -/
def execHlt (s : State) : Host.Outcome State Fault Refusal :=
  .next s.signalHalt

end Sys2Proof.Machine
end

