-- ==== Sys2Proof/Machine/Devices.lean ====
section
/-!
DEFINITION. The display and the I/O controller (spec 60_exceptions.md R180 to R191), and the memory address decoder and
dispatcher of the absolute store (20_memory.md R57, R58).
-/

namespace Sys2Proof.Machine

/-- What a display cell that nothing has written holds: the space character (60_exceptions.md R181). -/
def dispUnlisted : Byte := 0x20#8

/-- The display cell at a linear offset. -/
def DispBuffer.read (d : DispBuffer) (off : Nat) : Byte := cellRead dispUnlisted d.cells off

/-- The display buffer with one cell set. -/
def DispBuffer.write (d : DispBuffer) (off : Nat) (v : Byte) : DispBuffer := ⟨cellWrite dispUnlisted d.cells off v⟩

/-- The display buffer's canonical form: offsets strictly rising and below `DISP_CELLS`, no entry equal to a space. -/
def DispBuffer.wf (d : DispBuffer) : Bool :=
  cellsRising d.cells && (cellsBelow Config.dispCells d.cells && cellsListed dispUnlisted d.cells)

/-- The value of a port, none if it was never written (60_exceptions.md R187). -/
def PortMap.lookup (m : PortMap) (p : Byte) : Option Byte := cellFind m.cells p.toNat

/-- The port map with one port set (60_exceptions.md R185). -/
def PortMap.set (m : PortMap) (p v : Byte) : PortMap := ⟨cellPut m.cells p.toNat v⟩

/-- The port map's canonical form: ports strictly rising and below 256. -/
def PortMap.wf (m : PortMap) : Bool := cellsRising m.cells && cellsBelow 256 m.cells

/-- `DispWrite(off, v)`: a cell in range is overwritten and the dirty flag set; out of range nothing changes
(60_exceptions.md R180, R182). -/
def State.dispWrite (s : State) (off : Nat) (v : Byte) : State :=
  if off < Config.dispCells then { s with disp := s.disp.write off v, dirty := true } else s

/-- What a write to a port emits: port 0x00 a number, port 0x01 a character, any other nothing (60_exceptions.md R185,
R186). -/
def portEvents (p v : Byte) : List OutEvent :=
  if p = 0x00#8 then [.numericOut v] else if p = 0x01#8 then [.charOut v] else []

/-- `PortWrite(p, v)`: records the value, appends to the log, emits what the port emits (60_exceptions.md R185). -/
def State.portWrite (s : State) (p v : Byte) : State :=
  { s with ports := s.ports.set p v, iolog := s.iolog ++ [(p, v)], events := s.events ++ portEvents p v }

/-- Where an absolute store goes. -/
inductive StoreTarget where
  | display (off : DispOffset)
  | port (p : Byte)
  | rawMemory
deriving DecidableEq, Repr

/-- The memory address decoder (20_memory.md R57, R58). -/
def storeTarget (addr : Addr) : StoreTarget :=
  if 0x4000 ≤ addr.toNat ∧ addr.toNat < 0x5000 then .display (BitVec.ofNat 12 (addr.toNat - 0x4000))
  else if 0x5000 ≤ addr.toNat ∧ addr.toNat < 0x6000 then .port (BitVec.ofNat 8 (addr.toNat - 0x5000))
  else .rawMemory

/-- `StoreDispatch(addr, v)`, with its transaction (20_memory.md R58). -/
def State.storeDispatch (s : State) (addr : Addr) (v : Byte) : State :=
  match storeTarget addr with
  | .display off => (s.dispWrite off.toNat v).noteAccess (.dispWrite off v)
  | .port p => (s.portWrite p v).noteAccess (.portWrite p v)
  | .rawMemory => s.busWrite addr v

end Sys2Proof.Machine
end

