-- ==== Sys2Proof/Machine/LoadStore.lean ====
section
/-!
DEFINITION. The meanings of the loads and stores (spec 40_load_store.md). A meaning runs with PC past the instruction's
bytes (10_state.md R24).
-/

namespace Sys2Proof.Machine

/-- `LDA #imm8` (R100 to R102). -/
def execLdaImm (imm : Byte) (s : State) : Host.Outcome State Fault Refusal :=
  .next (((s.setA imm).setZN imm).answerOk .ldaImm)

/-- `LDA zp8` (R103 to R105). -/
def execLdaZp (zp : Byte) (s : State) : Host.Outcome State Fault Refusal :=
  let got := s.busRead (zpAddr zp)
  .next (((got.2.setA got.1).setZN got.1).answerOk .ldaZp)

/-- `STA zp8`: raw memory, never the dispatcher (R106 to R108). -/
def execStaZp (zp : Byte) (s : State) : Host.Outcome State Fault Refusal :=
  .next ((s.busWrite (zpAddr zp) s.a).answerOk .staZp)

/-- `STA abs16`: the one instruction that consults the address map (R109 to R112). -/
def execStaAbs (addr : Addr) (s : State) : Host.Outcome State Fault Refusal :=
  .next ((s.storeDispatch addr s.a).answerOk .staAbs)

end Sys2Proof.Machine
end

