-- ==== Sys2Proof/Syntax.lean ====
section
/-!
DEFINITION. The instructions of the core (spec 30_encoding.md R84): the source's instruction tags, and the
instruction with its operands, one constructor per row of the opcode table.
-/

namespace Sys2Proof

/-- The decoder's symbolic result for an opcode, the source's instruction tag (R84). -/
inductive Tag where
  | loadAccumulatorImmediate
  | loadAccumulatorZeroPage
  | storeAccumulatorZeroPage
  | storeAccumulatorAbsolute
  | addWithCarryImmediate
  | subtractWithCarryImmediate
  | incrementZeroPage
  | compareImmediate
  | branchIfNotEqual
  | setCarryFlag
  | halt
deriving DecidableEq, Repr

/-- An instruction with its operands (R81, R84). -/
inductive Instr where
  /-- `LDA #imm8` (R100). -/
  | ldaImm (imm : Byte)
  /-- `LDA zp8` (R103). -/
  | ldaZp (zp : Byte)
  /-- `STA zp8` (R106). -/
  | staZp (zp : Byte)
  /-- `STA abs16` (R109). -/
  | staAbs (addr : Addr)
  /-- `ADC #imm8` (R124). -/
  | adcImm (imm : Byte)
  /-- `SBC #imm8` (R129). -/
  | sbcImm (imm : Byte)
  /-- `INC zp8` (R134). -/
  | incZp (zp : Byte)
  /-- `CMP #imm8` (R138). -/
  | cmpImm (imm : Byte)
  /-- `BNE rel8` (R154). -/
  | bne (rel : Byte)
  /-- `SEC` (R159). -/
  | sec
  /-- `HLT` (R162). -/
  | hlt
deriving DecidableEq, Repr

/-- The tag of an instruction (R84, R93). -/
def Instr.tag : Instr → Tag
  | .ldaImm _ => .loadAccumulatorImmediate
  | .ldaZp _ => .loadAccumulatorZeroPage
  | .staZp _ => .storeAccumulatorZeroPage
  | .staAbs _ => .storeAccumulatorAbsolute
  | .adcImm _ => .addWithCarryImmediate
  | .sbcImm _ => .subtractWithCarryImmediate
  | .incZp _ => .incrementZeroPage
  | .cmpImm _ => .compareImmediate
  | .bne _ => .branchIfNotEqual
  | .sec => .setCarryFlag
  | .hlt => .halt

end Sys2Proof
end

