-- ==== Sys2Proof/Machine/Dispatch.lean ====
section
/-! DEFINITION. The meaning of every instruction, one arm per constructor. -/

namespace Sys2Proof.Machine

def exec (i : Instr) (s : State) : Host.Outcome State Fault Refusal :=
  match i with
  | .ldaImm imm => Sys2Proof.Machine.execLdaImm imm s
  | .ldaZp zp => Sys2Proof.Machine.execLdaZp zp s
  | .staZp zp => Sys2Proof.Machine.execStaZp zp s
  | .staAbs addr => Sys2Proof.Machine.execStaAbs addr s
  | .adcImm imm => Sys2Proof.Machine.execAdcImm imm s
  | .sbcImm imm => Sys2Proof.Machine.execSbcImm imm s
  | .incZp zp => Sys2Proof.Machine.execIncZp zp s
  | .cmpImm imm => Sys2Proof.Machine.execCmpImm imm s
  | .bne rel => Sys2Proof.Machine.execBne rel s
  | .sec => Sys2Proof.Machine.execSec s
  | .hlt => Sys2Proof.Machine.execHlt s

end Sys2Proof.Machine
end

