-- ==== Sys2Proof/WellFormed.lean ====
section
/-!
DEFINITION. Well-formedness: of an instruction, whose operand bytes are never checked (spec 30_encoding.md R90), and of
the bytes of one instruction, whose opcode must be in the table (R84, R91) and whose length the opcode fixes (R82).
-/

namespace Sys2Proof

/-- Every value of every operand byte is legal (R90), so every instruction is well formed. -/
def Instr.wellFormed : Instr → Bool
  | .ldaImm _ | .ldaZp _ | .staZp _ | .staAbs _ | .adcImm _ | .sbcImm _ | .incZp _ | .cmpImm _ | .bne _ | .sec
  | .hlt => true

/-- The length in bytes of the instruction an opcode byte begins, none for an illegal byte. It is R82's list, written
apart from the decoder's table. -/
def opcodeLength (op : Byte) : Option Nat :=
  if op = 0x38#8 ∨ op = 0xFF#8 then some 1
  else if op = 0x8D#8 then some 3
  else if op = 0xA9#8 ∨ op = 0xA5#8 ∨ op = 0x85#8 ∨ op = 0x69#8 ∨ op = 0xE9#8 ∨ op = 0xE6#8 ∨ op = 0xC9#8 ∨ op = 0xD0#8
  then some 2
  else none

/-- The bytes are those of exactly one instruction: a legal opcode (R91) and as many bytes as it asks for (R82). -/
def wellFormedBytes : List Byte → Bool
  | [] => false
  | op :: operands => opcodeLength op == some (operands.length + 1)

end Sys2Proof
end

