-- ==== Sys2Proof/Decode.lean ====
section
/-!
DEFINITION. The instruction decoder (spec 30_encoding.md R83 to R89), total on every byte and on every list of bytes, and
the encoder written from the same table.
-/

namespace Sys2Proof

/-- What the decoder answers for one byte: `Tag | UnknownOpcode(byte)` (R83). -/
inductive OpcodeDecode where
  /-- The byte is one of the eleven opcodes. -/
  | tag (t : Tag)
  /-- The byte is no opcode; the offending byte is carried (R85). -/
  | unknownOpcode (b : Byte)
deriving DecidableEq, Repr

/-- Why a list of bytes is not decoded. -/
inductive DecodeError where
  /-- There is no byte to decode. -/
  | noBytes
  /-- The first byte is no opcode (R91). -/
  | unknownOpcode (b : Byte)
  /-- The list ends before the operand bytes of its opcode. A step never meets it: it fetches what it needs (log entry 16). -/
  | truncated (t : Tag)
deriving DecidableEq, Repr

/-- What reading one instruction from the front of a list of bytes answers. -/
inductive DecodeResult where
  /-- The instruction and the bytes after it. -/
  | instr (i : Instr) (rest : List Byte)
  /-- No instruction, and why. -/
  | refused (e : DecodeError)
deriving DecidableEq, Repr

/-- The opcode table (R84): all 8 bits of the byte against each row (R83). -/
def decodeOpcode (op : Byte) : OpcodeDecode :=
  if op = 0xA9#8 then .tag .loadAccumulatorImmediate
  else if op = 0xA5#8 then .tag .loadAccumulatorZeroPage
  else if op = 0x85#8 then .tag .storeAccumulatorZeroPage
  else if op = 0x8D#8 then .tag .storeAccumulatorAbsolute
  else if op = 0x69#8 then .tag .addWithCarryImmediate
  else if op = 0xE9#8 then .tag .subtractWithCarryImmediate
  else if op = 0xE6#8 then .tag .incrementZeroPage
  else if op = 0xC9#8 then .tag .compareImmediate
  else if op = 0xD0#8 then .tag .branchIfNotEqual
  else if op = 0x38#8 then .tag .setCarryFlag
  else if op = 0xFF#8 then .tag .halt
  else .unknownOpcode op

/-- The "operand bytes" column of the opcode table (R84). -/
def operandBytes : Tag → Nat
  | .setCarryFlag | .halt => 0
  | .storeAccumulatorAbsolute => 2
  | .loadAccumulatorImmediate | .loadAccumulatorZeroPage | .storeAccumulatorZeroPage | .addWithCarryImmediate
  | .subtractWithCarryImmediate | .incrementZeroPage | .compareImmediate | .branchIfNotEqual => 1

/-- Operand byte `k` of a fetched list. -/
def operandByte (ops : List Byte) (k : Nat) : Byte := ops.getD k 0#8

/-- Operand assembly (R86 to R89): the instruction of a tag and its operand bytes, in the order they are fetched. -/
def assemble (t : Tag) (ops : List Byte) : Instr :=
  match t with
  | .loadAccumulatorImmediate => .ldaImm (operandByte ops 0)
  | .loadAccumulatorZeroPage => .ldaZp (operandByte ops 0)
  | .storeAccumulatorZeroPage => .staZp (operandByte ops 0)
  | .storeAccumulatorAbsolute => .staAbs (Machine.wordOf (operandByte ops 0) (operandByte ops 1))
  | .addWithCarryImmediate => .adcImm (operandByte ops 0)
  | .subtractWithCarryImmediate => .sbcImm (operandByte ops 0)
  | .incrementZeroPage => .incZp (operandByte ops 0)
  | .compareImmediate => .cmpImm (operandByte ops 0)
  | .branchIfNotEqual => .bne (operandByte ops 0)
  | .setCarryFlag => .sec
  | .halt => .hlt

/-- Reads one instruction from the front of a list of bytes and answers it with the bytes after it (R80 to R82). -/
def decode : List Byte → DecodeResult
  | [] => .refused .noBytes
  | op :: rest =>
    match decodeOpcode op with
    | .unknownOpcode b => .refused (.unknownOpcode b)
    | .tag t =>
      if rest.length < operandBytes t then .refused (.truncated t)
      else .instr (assemble t (rest.take (operandBytes t))) (rest.drop (operandBytes t))

/-- The opcode byte of a tag, read from the table the other way (R84). -/
def opcodeOf : Tag → Byte
  | .loadAccumulatorImmediate => 0xA9#8
  | .loadAccumulatorZeroPage => 0xA5#8
  | .storeAccumulatorZeroPage => 0x85#8
  | .storeAccumulatorAbsolute => 0x8D#8
  | .addWithCarryImmediate => 0x69#8
  | .subtractWithCarryImmediate => 0xE9#8
  | .incrementZeroPage => 0xE6#8
  | .compareImmediate => 0xC9#8
  | .branchIfNotEqual => 0xD0#8
  | .setCarryFlag => 0x38#8
  | .halt => 0xFF#8

/-- The operand bytes of an instruction in the order they are stored (R81, R88). -/
def operandsOf : Instr → List Byte
  | .ldaImm imm | .adcImm imm | .sbcImm imm | .cmpImm imm => [imm]
  | .ldaZp zp | .staZp zp | .incZp zp => [zp]
  | .staAbs addr => [Machine.lowByte addr, Machine.highByte addr]
  | .bne rel => [rel]
  | .sec | .hlt => []

/-- The bytes of an instruction, the first at the lowest address (R80, R81). -/
def encode (i : Instr) : List Byte := opcodeOf i.tag :: operandsOf i

/-- The length of an instruction in bytes (R82). -/
def instrLength (i : Instr) : Nat := operandBytes i.tag + 1

/-- Byte `k` of a word whose byte 0 is its least significant byte. -/
def byteOfWord (w k : Nat) : Byte := BitVec.ofNat 8 (w / 256 ^ k)

/-- An instruction given as the opcode table numbers its bits, as bytes in memory order: the first byte is bits 7 to 0.
The bits from `nbits` up are zero, up to the longest instruction, three bytes. -/
def tableBytes (nbits w : Nat) : List Byte :=
  let v := w % 2 ^ nbits
  [byteOfWord v 0, byteOfWord v 1, byteOfWord v 2]

/-- The instruction the decoder reads from an instruction of the opcode table, none where it refuses. -/
def decodeTableWord (nbits w : Nat) : Option Instr :=
  match decode (tableBytes nbits w) with
  | .instr i _ => some i
  | .refused _ => none

end Sys2Proof
end

