-- ==== Sys2Proof/Machine/Fetch.lean ====
section
/-!
DEFINITION. Fetching an instruction's bytes (spec 42_control.md R151, R152): always from raw memory, the program counter
moving past each byte.
-/

namespace Sys2Proof.Machine

/-- `FetchByte()` (42_control.md R151). -/
def State.fetchByte (s : State) : Byte × State :=
  ((s.busRead s.pc).1, (s.busRead s.pc).2.setPc (s.pc + 1))

/-- So many bytes fetched one after the other, in increasing address order (20_memory.md R70). -/
def State.fetchBytes : Nat → State → List Byte × State
  | 0, s => ([], s)
  | n + 1, s =>
    let first := s.fetchByte
    let later := State.fetchBytes n first.2
    (first.1 :: later.1, later.2)

/-- What the fetch and decode part of a step answers. -/
inductive FetchResult where
  /-- An instruction, and the state with all its bytes fetched. -/
  | instr (i : Instr) (s : State)
  /-- A byte that is no opcode, and the state with that one byte fetched. -/
  | unknownOpcode (b : Byte) (s : State)

/-- Fetches the opcode byte, decodes it, and fetches the operand bytes it asks for (42_control.md R152); after an illegal
byte no operand byte is fetched (60_exceptions.md R171). -/
def State.fetchInstr (s : State) : FetchResult :=
  let op := s.fetchByte
  match decodeOpcode op.1 with
  | .unknownOpcode b => .unknownOpcode b op.2
  | .tag t =>
    let ops := State.fetchBytes (operandBytes t) op.2
    .instr (assemble t ops.1) ops.2

/-- Bytes stored one after the other in raw memory from an address on, wrapping at the top. -/
def State.storeBytes (s : State) (a : Addr) : List Byte → State
  | [] => s
  | b :: rest => (s.writeByte a b).storeBytes (a + 1) rest

end Sys2Proof.Machine
end

