-- ==== Sys2Proof/Machine/Step.lean ====
section
/-!
DEFINITION. One step by the run state (spec 42_control.md R150, R152), and where a step fetches its next instruction.
-/

namespace Sys2Proof.Machine

/-- A `step` request. An illegal opcode takes the decode-failure exception (60_exceptions.md R171); a step before the first
reset is refused (42_control.md R150). -/
def step (s : State) : Host.Outcome State Fault Refusal :=
  match s.run with
  | .notReset => .refused .notReset
  | .halted => .next s.stepHalted
  | .faulted b => .next (s.stepFaulted b)
  | .running =>
    match s.beginStep.fetchInstr with
    | .instr i s' => exec i s'
    | .unknownOpcode b s' => .next (s'.raiseDecodeFailure b)

/-- The state with an instruction of the opcode table stored at PC, in raw memory, and the machine running, so that the next
step fetches and runs it (log entry 9). -/
def State.withFetchWord (s : State) (nbits w : Nat) : State :=
  { s.storeBytes s.pc (tableBytes nbits w) with run := .running }

end Sys2Proof.Machine
end

