-- ==== Sys2Proof/Machine/Assembler.lean ====
section
/-!
DEFINITION. The spec's assembler syntax (30_encoding.md R93, R94), with labels already resolved to addresses: which line
stands for which instruction, and which bytes the directives emit where. The machine does not read it.
-/

namespace Sys2Proof.Machine

/-- The nine mnemonics (30_encoding.md R93). -/
inductive Mnemonic where
  | lda | sta | adc | sbc | inc | cmp | bne | sec | hlt
deriving DecidableEq, Repr

/-- The mnemonic of an instruction (30_encoding.md R84). -/
def mnemonicOf : Instr → Mnemonic
  | .ldaImm _ | .ldaZp _ => .lda
  | .staZp _ | .staAbs _ => .sta
  | .adcImm _ => .adc
  | .sbcImm _ => .sbc
  | .incZp _ => .inc
  | .cmpImm _ => .cmp
  | .bne _ => .bne
  | .sec => .sec
  | .hlt => .hlt

/-- An operand as it is written (30_encoding.md R93). -/
inductive AsmOperand where
  | none
  /-- `#v`. -/
  | immediate (v : Byte)
  /-- `$nn`, a zero-page address. -/
  | byteValue (v : Byte)
  /-- `$nnnn`, an absolute address or a branch target. -/
  | wordValue (v : Addr)
  /-- `*+n`, the line's own address and `n`. -/
  | fromHere (n : Int)
deriving DecidableEq, Repr

/-- `rel8` of a branch at `a` to a target: the difference from `a + 2`, modulo 65536, read as signed; none outside -128 to
127 (30_encoding.md R93). -/
def branchOperand (a target : Addr) : Option Byte :=
  let d := (target - (a + 2)).toInt
  if -128 ≤ d ∧ d ≤ 127 then some (BitVec.ofInt 8 d) else Option.none

/-- The instruction a line at address `a` stands for, none where the line is refused (30_encoding.md R93). -/
def assembleLine (a : Addr) : Mnemonic → AsmOperand → Option Instr
  | .lda, .immediate v => some (.ldaImm v)
  | .lda, .byteValue v => some (.ldaZp v)
  | .sta, .byteValue v => some (.staZp v)
  | .sta, .wordValue v => some (.staAbs v)
  | .adc, .immediate v => some (.adcImm v)
  | .sbc, .immediate v => some (.sbcImm v)
  | .inc, .byteValue v => some (.incZp v)
  | .cmp, .immediate v => some (.cmpImm v)
  | .bne, .wordValue target => (branchOperand a target).map .bne
  | .bne, .fromHere n => (branchOperand a (a + BitVec.ofInt 16 n)).map .bne
  | .sec, .none => some .sec
  | .hlt, .none => some .hlt
  | _, _ => Option.none

/-- A line of a program (30_encoding.md R93, R94). -/
inductive AsmLine where
  | instr (m : Mnemonic) (o : AsmOperand)
  /-- `.org $nnnn`: the address of the next byte. -/
  | org (a : Addr)
  /-- `.byte b, ...`. -/
  | bytes (bs : List Byte)
  /-- `.word w`, little-endian. -/
  | word (w : Addr)
deriving DecidableEq, Repr

/-- Bytes at consecutive addresses, modulo 65536. -/
def placeBytes (a : Addr) : List Byte → List (Addr × Byte)
  | [] => []
  | b :: rest => (a, b) :: placeBytes (a + 1) rest

/-- The bytes a program emits, each with its address, from address `a` on; none where a line is refused. -/
def assembleProgram (a : Addr) : List AsmLine → Option (List (Addr × Byte))
  | [] => some []
  | .org a' :: rest => assembleProgram a' rest
  | .bytes bs :: rest =>
    (assembleProgram (a + BitVec.ofNat 16 bs.length) rest).map (placeBytes a bs ++ ·)
  | .word w :: rest => (assembleProgram (a + 2) rest).map (placeBytes a [lowByte w, highByte w] ++ ·)
  | .instr m o :: rest =>
    match assembleLine a m o with
    | Option.none => Option.none
    | some i =>
      (assembleProgram (a + BitVec.ofNat 16 (encode i).length) rest).map (placeBytes a (encode i) ++ ·)

end Sys2Proof.Machine
end

