-- ==== Sys2Proof/Machine/HostOps.lean ====
section
/-!
DEFINITION. The host's transactions, applied between steps (spec 20_memory.md R69): loading a program, the I/O controller's
host operations, the display's rendering and the register view. `reset` and `WriteWord` stand in Ops.lean.
-/

namespace Sys2Proof.Machine

/-- `load_program(bytes, start)`: copies into raw memory, or changes nothing when the bytes would pass the end of the
address space (20_memory.md R56). -/
def State.loadProgram (s : State) (bytes : List Byte) (start : Addr) : State :=
  if start.toNat + bytes.length ≤ 65536 then s.storeBytes start bytes else s

/-- `read_port(p)`: the oldest input byte whatever the port, else the port's value, else 0 (60_exceptions.md R187). -/
def State.readPort (s : State) (p : Byte) : Byte × State :=
  match s.inq with
  | b :: rest => (b, { s with inq := rest })
  | [] => ((s.ports.lookup p).getD 0x00#8, s)

/-- `enqueue_input(b)` (60_exceptions.md R188). -/
def State.enqueueInput (s : State) (b : Byte) : State := { s with inq := s.inq ++ [b] }

/-- `update()`, a no-op (60_exceptions.md R189). -/
def State.update (s : State) : State := s

/-- How a display byte renders (60_exceptions.md R183). Which glyph the placeholder is the spec leaves open (93, U14). -/
inductive Glyph where
  | character (b : Byte)
  | placeholder
deriving DecidableEq, Repr

/-- A byte in the printable ASCII range 0x20 to 0x7E renders as its character, any other as the placeholder
(60_exceptions.md R183). -/
def renderByte (b : Byte) : Glyph :=
  if 0x20 ≤ b.toNat ∧ b.toNat < 0x7F then .character b else .placeholder

/-- `render()`: a snapshot of the buffer by linear offset, and the state, which it does not change (60_exceptions.md R183). -/
def State.render (s : State) : List Glyph × State :=
  ((List.range Config.dispCells).map fun off => renderByte (s.disp.read off), s)

/-- `print_stats()`: reads the write log and changes no state; its format is open (60_exceptions.md R190, 93 U15). -/
def State.printStats (s : State) : List (Byte × Byte) × State := (s.iolog, s)

/-- What the register view shows (10_state.md R42). -/
structure RegisterView where
  pc : Addr
  sp : Byte
  a : Byte
  x : Byte
  y : Byte
  p : Byte
  run : RunState
deriving DecidableEq, Repr

/-- The register view, and the state, which it does not change (10_state.md R42). -/
def State.registerView (s : State) : RegisterView × State :=
  (⟨s.pc, s.sp, s.a, s.x, s.y, s.p, s.run⟩, s)

end Sys2Proof.Machine
end

