-- ==== Sys2Proof/Safety.lean ====
section
/-!
DEFINITION. What counts as a good state of the machine, and the terms the claims are written in: what an instruction leaves
unchanged, what a step fetches, which transactions an instruction makes.
-/

namespace Sys2Proof.Machine

/-- A run that has met no illegal opcode: it goes on or it ended by a halt, "a controlled termination, not a fault"
(spec 42_control.md R164). -/
def State.safe (s : State) : Prop := s.run = .running ∨ s.run = .halted

/-- The run ended: only `reset` leaves these run states (60_exceptions.md R177). -/
def State.stopped (s : State) : Prop := s.run = .halted ∨ ∃ b, s.run = .faulted b

/-- Every flag but the listed ones, and the reserved bit of P, is as before. -/
def SameFlagsBut (written : List Flag) (s t : State) : Prop :=
  (∀ f, f ∉ written → t.flag f = s.flag f) ∧ t.p.getLsbD 5 = s.p.getLsbD 5

/-- X, Y and SP are as before. -/
def SameIndexAndStack (s t : State) : Prop := t.x = s.x ∧ t.y = s.y ∧ t.sp = s.sp

/-- Every byte of raw memory reads as before. -/
def SameMemory (s t : State) : Prop := ∀ a, t.readByte a = s.readByte a

/-- Every byte of raw memory but the one at `w` reads as before. -/
def SameMemoryBut (w : Addr) (s t : State) : Prop := ∀ a, a ≠ w → t.readByte a = s.readByte a

/-- The display is as before. -/
def SameDisplay (s t : State) : Prop := t.disp = s.disp ∧ t.dirty = s.dirty

/-- The I/O controller and its outputs are as before. -/
def SameIo (s t : State) : Prop :=
  t.ports = s.ports ∧ t.iolog = s.iolog ∧ t.inq = s.inq ∧ t.events = s.events

/-- All that only a branch, a halt or an absolute store may change is as before: PC, the run state, the devices; and the
registers no instruction changes. -/
def SameElsewhere (s t : State) : Prop :=
  t.pc = s.pc ∧ t.run = s.run ∧ SameIndexAndStack s t ∧ SameDisplay s t ∧ SameIo s t

/-- Everything but the outputs of the latest step (`answer`, `trace`) is as before: what the spec calls changing no state. -/
def SameState (s t : State) : Prop :=
  t = { s with answer := t.answer, trace := t.trace }

/-- The byte of raw memory `k` bytes after PC, wrapping at the top (10_state.md R26). -/
def State.codeByte (s : State) (k : Nat) : Byte := s.readByte (s.pc + BitVec.ofNat 16 k)

/-- The bytes at PC, as many as the longest instruction has (30_encoding.md R81). -/
def State.codeWindow (s : State) : List Byte := [s.codeByte 0, s.codeByte 1, s.codeByte 2]

/-- The state of a step that has fetched `n` bytes: PC is past them and the trace holds their reads, in address order. -/
def State.fetched (s : State) (n : Nat) : State :=
  { s with
    pc := s.pc + BitVec.ofNat 16 n
    trace := (List.range n).map fun k => .memRead (s.pc + BitVec.ofNat 16 k) (s.codeByte k) }

/-- The data accesses of an instruction in a state, in order, after its fetches (20_memory.md R55, R57, R70). -/
def dataAccesses (i : Instr) (s : State) : List Access :=
  match i with
  | .ldaZp zp => [.memRead (zp.setWidth 16) (s.readByte (zp.setWidth 16))]
  | .staZp zp => [.memWrite (zp.setWidth 16) s.a]
  | .incZp zp =>
    [.memRead (zp.setWidth 16) (s.readByte (zp.setWidth 16)), .memWrite (zp.setWidth 16) (s.readByte (zp.setWidth 16) + 1)]
  | .staAbs addr =>
    if addr < 0x4000#16 then [.memWrite addr s.a]
    else if addr < 0x5000#16 then [.dispWrite ((addr - 0x4000#16).setWidth 12) s.a]
    else if addr < 0x6000#16 then [.portWrite (addr.setWidth 8) s.a]
    else [.memWrite addr s.a]
  | .ldaImm _ | .adcImm _ | .sbcImm _ | .cmpImm _ | .bne _ | .sec | .hlt => []

/-- The flags an instruction writes (10_state.md R28 to R31). -/
def flagsWritten : Instr → List Flag
  | .ldaImm _ | .ldaZp _ | .incZp _ => [.z, .n]
  | .adcImm _ | .sbcImm _ => [.c, .v, .z, .n]
  | .cmpImm _ => [.c, .z, .n]
  | .sec => [.c]
  | .staZp _ | .staAbs _ | .bne _ | .hlt => []

/-- The 8-bit result an instruction's zero and negative flags are of, read from the states before and after it; none for an
instruction that updates neither (41_arithmetic.md R120, R121). -/
def flagResult (i : Instr) (s t : State) : Option Byte :=
  match i with
  | .ldaImm _ | .ldaZp _ | .adcImm _ | .sbcImm _ => some t.a
  | .incZp zp => some (t.readByte (zpAddr zp))
  | .cmpImm imm => some (s.a - imm)
  | .staZp _ | .staAbs _ | .bne _ | .sec | .hlt => none

/-- What an instruction answers, by the table's entries: its cost, or `Halted` without one (70_reset_and_hazards.md R205). -/
def answerOf (i : Instr) (zeroSet : Bool) : Answer :=
  match i with
  | .ldaImm _ => .ok (Config.cyc .ldaImm)
  | .ldaZp _ => .ok (Config.cyc .ldaZp)
  | .staZp _ => .ok (Config.cyc .staZp)
  | .staAbs _ => .ok (Config.cyc .staAbs)
  | .adcImm _ => .ok (Config.cyc .adcImm)
  | .sbcImm _ => .ok (Config.cyc .sbcImm)
  | .incZp _ => .ok (Config.cyc .incZp)
  | .cmpImm _ => .ok (Config.cyc .cmpImm)
  | .bne _ => if zeroSet then .ok (Config.cyc .bneNotTaken) else .ok (Config.cyc .bneTaken)
  | .sec => .ok (Config.cyc .sec)
  | .hlt => .halted

/-- The value a write log leaves in a port: that of the latest write to it, none without one. -/
def lastWritten : List (Byte × Byte) → Byte → Option Byte
  | [], _ => none
  | w :: rest, p => (lastWritten rest p).or (if w.1 = p then some w.2 else none)

/-- Raw memory, the display buffer and the port map are in canonical form. -/
def State.Canonical (s : State) : Prop := s.mem.wf = true ∧ s.disp.wf = true ∧ s.ports.wf = true

/-- The registers that no instruction writes hold what reset or power-on left: SP is 0xFF, the reserved bit of P is 1, P.I,
P.D and P.B are 0 (after reset), X and Y hold their power-on values (10_state.md R22, R32, R33, R36). -/
def State.RegistersAtRest (s : State) : Prop :=
  s.x = Config.x0 ∧ s.y = Config.y0 ∧
  (s.run ≠ .notReset →
    s.sp = 0xFF#8 ∧ s.p.getLsbD 5 = true ∧ s.flag .i = false ∧ s.flag .d = false ∧ s.flag .b = false)

/-- The I/O controller's port map and outputs are what its write log says (60_exceptions.md R185). -/
def State.IoFollowsLog (s : State) : Prop :=
  (∀ p, s.ports.lookup p = lastWritten s.iolog p) ∧ s.events = s.iolog.flatMap fun w => portEvents w.1 w.2

/-- The invariant of the machine: it holds at power-on and at reset, and every step and host operation keeps it. -/
def State.Inv (s : State) : Prop :=
  s.Canonical ∧ s.RegistersAtRest ∧ s.IoFollowsLog ∧
  (s.dirty = false → s.disp.cells = []) ∧
  (∀ b, s.run = .faulted b → opcodeLength b = none)

/-- Two states agree on all that an instruction may read: PC, A, the carry and zero flags, raw memory and the run state. -/
def CoreAgree (s t : State) : Prop :=
  s.pc = t.pc ∧ s.a = t.a ∧ s.flag .c = t.flag .c ∧ s.flag .z = t.flag .z ∧ (∀ a, s.readByte a = t.readByte a) ∧
  s.run = t.run

/-- `k` steps of the machine. -/
abbrev runSteps (k : Nat) (s : State) : Host.Outcome State Fault Refusal :=
  Host.Core.run { State := State, Fault := Fault, Refusal := Refusal, step := step, reset := State.reset } k s

end Sys2Proof.Machine
end

