-- ==== Sys2Proof/Certificates/Slice0/Obligations.lean ====
section
/-!
DEFINITION. The statements for the provers. A statement that cites a rule in OBLIGATIONS.json says that rule. Where a clause
rests on a choice of the model's, or on what the spec marks as its own decision or inference (log entry 13), the docstring
names it.
-/

section Statements

open Sys2Proof Sys2Proof.Machine

/-! ## The decoder and the encoder -/

/-- R85: decoding succeeds for exactly the eleven opcodes and otherwise fails carrying the byte. -/
def Obligations.DecoderAcceptsExactlyElevenOpcodes : Prop :=
  ∀ b : Byte,
    ((∃ t, decodeOpcode b = .tag t) ↔
      b ∈ [0xA9#8, 0xA5#8, 0x85#8, 0x8D#8, 0x69#8, 0xE9#8, 0xE6#8, 0xC9#8, 0xD0#8, 0x38#8, 0xFF#8]) ∧
    ((∀ t, decodeOpcode b ≠ .tag t) → decodeOpcode b = .unknownOpcode b)

/-- The bytes of each instruction written out from the spec's encoding of it decode to the instruction they stand for. -/
def Obligations.WrittenOutBytesDecode : Prop :=
  decode [0xA9#8, 0x80#8] = .instr (.ldaImm 0x80#8) [] ∧
  decode [0xA5#8, 0x10#8] = .instr (.ldaZp 0x10#8) [] ∧
  decode [0x85#8, 0xFF#8] = .instr (.staZp 0xFF#8) [] ∧
  decode [0x8D#8, 0x05#8, 0x40#8] = .instr (.staAbs 0x4005#16) [] ∧
  decode [0x69#8, 0x01#8] = .instr (.adcImm 0x01#8) [] ∧
  decode [0xE9#8, 0x5F#8] = .instr (.sbcImm 0x5F#8) [] ∧
  decode [0xE6#8, 0x20#8] = .instr (.incZp 0x20#8) [] ∧
  decode [0xC9#8, 0x05#8] = .instr (.cmpImm 0x05#8) [] ∧
  decode [0xD0#8, 0xF3#8] = .instr (.bne 0xF3#8) [] ∧
  decode [0x38#8] = .instr .sec [] ∧
  decode [0xFF#8, 0x00#8] = .instr .hlt [0x00#8]

/-- Decoding an encoded instruction, whatever follows it, gives it back with every operand, and leaves what follows. -/
def Obligations.DecodeOfEncodeIsTheInstruction : Prop :=
  ∀ (i : Instr) (rest : List Byte), decode (encode i ++ rest) = .instr i rest

/-- The bytes that decode to an instruction are its encoding: no second encoding exists. -/
def Obligations.DecodedBytesAreTheEncoding : Prop :=
  ∀ (bs : List Byte) (i : Instr) (rest : List Byte), decode bs = .instr i rest → bs = encode i ++ rest

/-- Bytes decode exactly when they begin with the well-formed bytes of one instruction, and a first byte without a length is
refused by name. That the empty list and a list cut short before its operand bytes do not decode is the model's choice (log
entry 16): the spec's decoder takes one byte (30_encoding.md R83). -/
def Obligations.DecodeAcceptsExactlyWellFormedBytes : Prop :=
  ∀ bs : List Byte,
    ((∃ i rest, decode bs = .instr i rest) ↔ ∃ instrBytes rest, bs = instrBytes ++ rest ∧ wellFormedBytes instrBytes = true) ∧
    (∀ b rest, bs = b :: rest → (opcodeLength b = none ↔ decode bs = .refused (.unknownOpcode b)))

/-! ## The step -/

/-- A step of a running machine whose bytes at PC decode to an instruction is that instruction's meaning, in the state whose
PC is past its bytes and whose trace holds their reads; three bytes are enough for any legal opcode. -/
def Obligations.StepRunsTheDecodedInstruction : Prop :=
  ∀ s : State, s.run = .running →
    (∀ i rest, decode s.codeWindow = .instr i rest → step s = exec i (s.fetched (encode i).length)) ∧
    ((∃ i rest, decode s.codeWindow = .instr i rest) ↔ opcodeLength (s.readByte s.pc) ≠ none)

/-- 60_exceptions.md R171, the spec's own decisions D5 and D27 (log entry 13): an illegal byte at PC takes the decode-failure
exception, and no further instruction executes. The trace clause is the model's record of the one fetch (log entry 8). -/
def Obligations.IllegalOpcodeTakesDecodeFailure : Prop :=
  ∀ s : State, s.run = .running → opcodeLength (s.readByte s.pc) = none →
    ∃ t, step s = .next t ∧
      t = { s with
        pc := s.pc + 1#16
        run := .faulted (s.readByte s.pc)
        answer := some (.decodeFailure (s.readByte s.pc))
        trace := [.memRead s.pc (s.readByte s.pc)] } ∧
      ∀ k, ∃ u, runSteps k t = .next u ∧ SameState t u

/-- 42_control.md R150, the spec's own decisions D2, D4 and D5 (log entry 13): a step by the run state. That the stopped
states' steps renew the outputs `answer` and `trace` is log entry 11. -/
def Obligations.StepActsByRunState : Prop :=
  ∀ s : State,
    (s.run = .running →
      (∀ i rest, decode s.codeWindow = .instr i rest → step s = exec i (s.fetched (encode i).length)) ∧
      (opcodeLength (s.readByte s.pc) = none →
        step s = .next ((s.fetched 1).raiseDecodeFailure (s.readByte s.pc)))) ∧
    (s.run = .halted → ∃ t, step s = .next t ∧ SameState s t ∧ t.answer = some .halted) ∧
    (∀ b, s.run = .faulted b → ∃ t, step s = .next t ∧ SameState s t ∧ t.answer = some (.decodeFailure b)) ∧
    (s.run = .notReset → step s = .refused .notReset)

/-- A step never faults, is refused exactly before the first reset, and otherwise answers a next state (42_control.md R150,
the spec's own decision D2; the refusal's form is log entry 18). -/
def Obligations.StepIsRefusedExactlyBeforeReset : Prop :=
  ∀ s : State,
    (∀ f, step s ≠ .fault f) ∧ ((∃ r, step s = .refused r) ↔ s.run = .notReset) ∧
    ((∃ t, step s = .next t) ↔ s.run ≠ .notReset)

/-- Every step answers one of the three outcomes of 00_scope.md section 4, and the run state after it is that outcome's (the
field that holds the outcome is the model's, log entry 1; the run states are the spec's own decisions D4 and D5, log entry
13). -/
def Obligations.StepAnswersOneOutcome : Prop :=
  ∀ s t : State, step s = .next t →
    (t.run = .running ∧ ∃ e, t.answer = some (.ok (Config.cyc e))) ∨
    (t.run = .halted ∧ t.answer = some .halted) ∨
    (∃ b, t.run = .faulted b ∧ t.answer = some (.decodeFailure b))

/-- A running machine stops only at a halt or an illegal byte, and only an illegal byte makes its run unsafe (the run states
are the spec's own decisions D4 and D5, log entry 13). -/
def Obligations.RunStopsOnlyAtHaltOrIllegalByte : Prop :=
  ∀ s t : State, s.run = .running → step s = .next t →
    (t.run = .halted ↔ s.readByte s.pc = 0xFF#8) ∧
    (∀ b, t.run = .faulted b ↔ (b = s.readByte s.pc ∧ opcodeLength b = none)) ∧
    (t.run = .running ↔ (s.readByte s.pc ≠ 0xFF#8 ∧ opcodeLength (s.readByte s.pc) ≠ none)) ∧
    (t.safe ↔ opcodeLength (s.readByte s.pc) ≠ none)

/-! ## Each instruction: what it writes, what it leaves, and that it completes -/

/-- `LDA #imm8`: A and the flags Z and N; nothing stored. -/
def Obligations.LdaImmLoadsItsOperand : Prop :=
  ∀ (imm : Byte) (s : State), ∃ t, exec (.ldaImm imm) s = .next t ∧
    t.a = imm ∧ (t.flag .z = true ↔ imm.toNat = 0) ∧ (t.flag .n = true ↔ 128 ≤ imm.toNat) ∧
    SameFlagsBut [.z, .n] s t ∧ SameElsewhere s t ∧ SameMemory s t ∧
    t.trace = s.trace ∧ t.answer = some (.ok (Config.cyc .ldaImm))

/-- `LDA zp8`: A and the flags Z and N, from raw memory; nothing stored. -/
def Obligations.LdaZpLoadsFromZeroPage : Prop :=
  ∀ (zp : Byte) (s : State), ∃ t v, exec (.ldaZp zp) s = .next t ∧
    v = s.readByte (BitVec.ofNat 16 zp.toNat) ∧ t.a = v ∧
    (t.flag .z = true ↔ v.toNat = 0) ∧ (t.flag .n = true ↔ 128 ≤ v.toNat) ∧
    SameFlagsBut [.z, .n] s t ∧ SameElsewhere s t ∧ SameMemory s t ∧
    t.trace = s.trace ++ [.memRead (BitVec.ofNat 16 zp.toNat) v] ∧ t.answer = some (.ok (Config.cyc .ldaZp))

/-- `STA zp8`: one byte of raw memory, at the zero-page address; no register and no flag. -/
def Obligations.StaZpStoresToZeroPage : Prop :=
  ∀ (zp : Byte) (s : State), ∃ t, exec (.staZp zp) s = .next t ∧
    zpAddr zp = BitVec.ofNat 16 zp.toNat ∧ t.readByte (zpAddr zp) = s.a ∧ SameMemoryBut (zpAddr zp) s t ∧
    t.a = s.a ∧ t.p = s.p ∧ SameElsewhere s t ∧
    t.trace = s.trace ++ [.memWrite (zpAddr zp) s.a] ∧ t.answer = some (.ok (Config.cyc .staZp))

/-- 40_load_store.md R111: `STA abs16` by address, raw memory, a display cell (dropped out of range; the open size is the
spec's decision D9, log entry 5) or an I/O port (the output events are its decision D15, log entries 7 and 13); no register
and no flag. -/
def Obligations.StaAbsStoresByAddressMap : Prop :=
  ∀ (addr : Addr) (s : State), ∃ t, exec (.staAbs addr) s = .next t ∧
    t.a = s.a ∧ t.p = s.p ∧ t.pc = s.pc ∧ t.run = s.run ∧ SameIndexAndStack s t ∧ t.inq = s.inq ∧
    t.answer = some (.ok (Config.cyc .staAbs)) ∧
    (addr.toNat < 0x4000 ∨ 0x6000 ≤ addr.toNat →
      t.readByte addr = s.a ∧ SameMemoryBut addr s t ∧ SameDisplay s t ∧ SameIo s t ∧
      t.trace = s.trace ++ [.memWrite addr s.a]) ∧
    (0x4000 ≤ addr.toNat ∧ addr.toNat < 0x5000 →
      SameMemory s t ∧ SameIo s t ∧
      t.trace = s.trace ++ [.dispWrite (BitVec.ofNat 12 (addr.toNat - 0x4000)) s.a] ∧
      (∀ k, k ≠ addr.toNat - 0x4000 → t.disp.read k = s.disp.read k) ∧
      (addr.toNat - 0x4000 < Config.dispCells → t.disp.read (addr.toNat - 0x4000) = s.a ∧ t.dirty = true) ∧
      (Config.dispCells ≤ addr.toNat - 0x4000 → SameDisplay s t)) ∧
    (0x5000 ≤ addr.toNat ∧ addr.toNat < 0x6000 → ∃ p : Byte, p.toNat = (addr.toNat - 0x5000) % 256 ∧
      SameMemory s t ∧ SameDisplay s t ∧ t.trace = s.trace ++ [.portWrite p s.a] ∧
      t.ports.lookup p = some s.a ∧ (∀ q, q ≠ p → t.ports.lookup q = s.ports.lookup q) ∧
      t.iolog = s.iolog ++ [(p, s.a)] ∧
      (p.toNat = 0 → t.events = s.events ++ [.numericOut s.a]) ∧
      (p.toNat = 1 → t.events = s.events ++ [.charOut s.a]) ∧
      (2 ≤ p.toNat → t.events = s.events))

/-- 41_arithmetic.md R126: `ADC #imm8`, the sum and the flags C, V, Z and N, with the two equivalent forms of V that the spec
marks as its own inference; nothing stored. -/
def Obligations.AdcImmAddsWithCarry : Prop :=
  ∀ (imm : Byte) (s : State), ∃ t, exec (.adcImm imm) s = .next t ∧
    t.a.toNat = (s.a.toNat + imm.toNat + (s.flag .c).toNat) % 256 ∧
    (t.flag .c = true ↔ s.a.toNat + imm.toNat + (s.flag .c).toNat > 0xFF) ∧
    (t.flag .v = true ↔ (s.a.getLsbD 7 = imm.getLsbD 7 ∧ t.a.getLsbD 7 ≠ s.a.getLsbD 7)) ∧
    t.flag .v = (~~~(s.a ^^^ imm) &&& (s.a ^^^ t.a)).getLsbD 7 ∧
    (t.flag .v = true ↔
      (s.a.toInt + imm.toInt + ((s.flag .c).toNat : Int) < -128 ∨ 127 < s.a.toInt + imm.toInt + ((s.flag .c).toNat : Int))) ∧
    (t.flag .z = true ↔ t.a.toNat = 0) ∧ (t.flag .n = true ↔ 128 ≤ t.a.toNat) ∧
    SameFlagsBut [.c, .v, .z, .n] s t ∧ SameElsewhere s t ∧ SameMemory s t ∧
    t.trace = s.trace ∧ t.answer = some (.ok (Config.cyc .adcImm))

/-- 41_arithmetic.md R131 on the unsigned difference of R130, the spec's own decision D6 (log entry 13): `SBC #imm8`, the
difference, the flags C, V, Z and N, with the equivalent forms of V and the agreement with ADC of the complement that the
spec marks as its own inference; nothing stored. -/
def Obligations.SbcImmSubtractsWithBorrow : Prop :=
  ∀ (imm : Byte) (s : State), ∃ t, exec (.sbcImm imm) s = .next t ∧
    (t.a.toNat : Int) = ((s.a.toNat : Int) - (imm.toNat : Int) - (1 - ((s.flag .c).toNat : Int))) % 256 ∧
    (t.flag .c = true ↔ 0 ≤ (s.a.toNat : Int) - (imm.toNat : Int) - (1 - ((s.flag .c).toNat : Int))) ∧
    (t.flag .v = true ↔ (s.a.getLsbD 7 ≠ imm.getLsbD 7 ∧ t.a.getLsbD 7 ≠ s.a.getLsbD 7)) ∧
    t.flag .v = ((s.a ^^^ imm) &&& (s.a ^^^ t.a)).getLsbD 7 ∧
    (t.flag .v = true ↔
      (s.a.toInt - imm.toInt - (1 - ((s.flag .c).toNat : Int)) < -128 ∨
        127 < s.a.toInt - imm.toInt - (1 - ((s.flag .c).toNat : Int)))) ∧
    (t.flag .z = true ↔ t.a.toNat = 0) ∧ (t.flag .n = true ↔ 128 ≤ t.a.toNat) ∧
    (∃ u, exec (.adcImm (imm ^^^ 0xFF#8)) s = .next u ∧ t.a = u.a ∧ t.p = u.p) ∧
    SameFlagsBut [.c, .v, .z, .n] s t ∧ SameElsewhere s t ∧ SameMemory s t ∧
    t.trace = s.trace ∧ t.answer = some (.ok (Config.cyc .sbcImm))

/-- `INC zp8`: one byte of raw memory incremented modulo 256, and the flags Z and N of the new value; A and the other flags
stand. -/
def Obligations.IncZpIncrementsZeroPage : Prop :=
  ∀ (zp : Byte) (s : State), ∃ t v, exec (.incZp zp) s = .next t ∧
    zpAddr zp = BitVec.ofNat 16 zp.toNat ∧
    v.toNat = ((s.readByte (zpAddr zp)).toNat + 1) % 256 ∧ t.readByte (zpAddr zp) = v ∧
    SameMemoryBut (zpAddr zp) s t ∧ t.a = s.a ∧
    (t.flag .z = true ↔ v.toNat = 0) ∧ (t.flag .n = true ↔ 128 ≤ v.toNat) ∧
    SameFlagsBut [.z, .n] s t ∧ SameElsewhere s t ∧
    t.trace = s.trace ++ [.memRead (zpAddr zp) (s.readByte (zpAddr zp)), .memWrite (zpAddr zp) v] ∧
    t.answer = some (.ok (Config.cyc .incZp))

/-- 41_arithmetic.md R140: `CMP #imm8`, the flags C, Z and N of the unsigned comparison, with the equivalences that the spec
marks as its own inference (Z iff equal, the flags of SBC with the carry set); A, V and all else stand. -/
def Obligations.CmpImmComparesUnsigned : Prop :=
  ∀ (imm : Byte) (s : State), ∃ t, exec (.cmpImm imm) s = .next t ∧
    t.a = s.a ∧ (t.flag .c = true ↔ imm.toNat ≤ s.a.toNat) ∧
    (t.flag .z = true ↔ (s.a - imm).toNat = 0) ∧ t.flag .n = (s.a - imm).getLsbD 7 ∧
    (t.flag .z = true ↔ s.a = imm) ∧
    (∃ u, exec (.sbcImm imm) (s.setFlag .c true) = .next u ∧
      t.flag .c = u.flag .c ∧ t.flag .z = u.flag .z ∧ t.flag .n = u.flag .n) ∧
    SameFlagsBut [.c, .z, .n] s t ∧ SameElsewhere s t ∧ SameMemory s t ∧
    t.trace = s.trace ∧ t.answer = some (.ok (Config.cyc .cmpImm))

/-- `BNE rel8`: with PC past the instruction (42_control.md R155, the spec's own decision D11, log entry 13), the signed
offset is added modulo 65536 when Z is clear; nothing else changes. -/
def Obligations.BneBranchesWhenZeroIsClear : Prop :=
  ∀ (rel : Byte) (s : State), ∃ t, exec (.bne rel) s = .next t ∧
    t = { s with pc := t.pc, answer := t.answer } ∧
    (s.flag .z = false →
      (t.pc.toNat : Int) = ((s.pc.toNat : Int) + rel.toInt) % 65536 ∧ t.answer = some (.ok (Config.cyc .bneTaken))) ∧
    (s.flag .z = true → t.pc = s.pc ∧ t.answer = some (.ok (Config.cyc .bneNotTaken)))

/-- R160: `SEC` sets the carry flag and touches nothing else. -/
def Obligations.SecSetsCarryAlone : Prop :=
  ∀ s : State, ∃ t, exec .sec s = .next t ∧
    t.flag .c = true ∧ SameFlagsBut [.c] s t ∧
    t = { s with p := t.p, answer := some (.ok (Config.cyc .sec)) }

/-- `HLT` enters the halted state and answers `Halted` without a cost; nothing else changes (42_control.md R164, the spec's
own decisions D4 and D23, log entries 1 and 13). -/
def Obligations.HltHalts : Prop :=
  ∀ s : State, exec .hlt s = .next { s with run := .halted, answer := some .halted }

/-! ## Each instruction as a whole step -/

/-- R101, R104: the loads as steps: the bytes at PC, the byte loaded, the flags, PC, the accesses, the cost, and nothing
else. -/
def Obligations.LoadStepsFollowTheirPseudocode : Prop :=
  ∀ s : State, s.run = .running →
    (s.codeByte 0 = 0xA9#8 → ∃ t v, step s = .next t ∧ v = s.codeByte 1 ∧
      (t.flag .z = true ↔ v.toNat = 0) ∧ (t.flag .n = true ↔ 128 ≤ v.toNat) ∧ SameFlagsBut [.z, .n] s t ∧
      t = { s with
        a := v
        p := t.p
        pc := s.pc + 2#16
        trace := [.memRead s.pc 0xA9#8, .memRead (s.pc + 1#16) v]
        answer := some (.ok (Config.cyc .ldaImm)) }) ∧
    (s.codeByte 0 = 0xA5#8 → ∃ t ea v, step s = .next t ∧
      ea.toNat = (s.codeByte 1).toNat ∧ v = s.readByte ea ∧
      (t.flag .z = true ↔ v.toNat = 0) ∧ (t.flag .n = true ↔ 128 ≤ v.toNat) ∧ SameFlagsBut [.z, .n] s t ∧
      t = { s with
        a := v
        p := t.p
        pc := s.pc + 2#16
        trace := [.memRead s.pc 0xA5#8, .memRead (s.pc + 1#16) (s.codeByte 1), .memRead ea v]
        answer := some (.ok (Config.cyc .ldaZp)) })

/-- R107, R109, R110: the stores as steps: the target's address assembled from the bytes at PC, the low byte first. -/
def Obligations.StoreStepsFollowTheirPseudocode : Prop :=
  ∀ s : State, s.run = .running →
    (s.codeByte 0 = 0x85#8 → ∃ t ea, step s = .next t ∧ ea.toNat = (s.codeByte 1).toNat ∧
      t.readByte ea = s.a ∧ SameMemoryBut ea s t ∧
      t = { s with
        mem := t.mem
        pc := s.pc + 2#16
        trace := [.memRead s.pc 0x85#8, .memRead (s.pc + 1#16) (s.codeByte 1), .memWrite ea s.a]
        answer := some (.ok (Config.cyc .staZp)) }) ∧
    (s.codeByte 0 = 0x8D#8 → ∃ addr : Addr,
      addr.toNat = (s.codeByte 1).toNat + 256 * (s.codeByte 2).toNat ∧
      step s = .next (((s.fetched 3).storeDispatch addr s.a).answerOk .staAbs))

/-- The pseudocode of 41_arithmetic.md R125, R130 (the unsigned operands of SBC are the spec's own decision D6, log entry
13), R135 and R139 as steps: the result, the flags, PC, the accesses, the cost, and nothing else. -/
def Obligations.ArithmeticStepsFollowTheirPseudocode : Prop :=
  ∀ s : State, s.run = .running →
    (s.codeByte 0 = 0x69#8 → ∃ t sum, step s = .next t ∧
      sum = s.a.toNat + (s.codeByte 1).toNat + (s.flag .c).toNat ∧
      (t.flag .c = true ↔ sum > 0xFF) ∧
      t.flag .v = (s.a.getLsbD 7 == (s.codeByte 1).getLsbD 7 && t.a.getLsbD 7 != s.a.getLsbD 7) ∧
      (t.flag .z = true ↔ t.a = 0#8) ∧ t.flag .n = t.a.getLsbD 7 ∧ SameFlagsBut [.c, .v, .z, .n] s t ∧
      t = { s with
        a := BitVec.ofNat 8 sum
        p := t.p
        pc := s.pc + 2#16
        trace := [.memRead s.pc 0x69#8, .memRead (s.pc + 1#16) (s.codeByte 1)]
        answer := some (.ok (Config.cyc .adcImm)) }) ∧
    (s.codeByte 0 = 0xE9#8 → ∃ t d, step s = .next t ∧
      d = (s.a.toNat : Int) - ((s.codeByte 1).toNat : Int) - (1 - ((s.flag .c).toNat : Int)) ∧
      (t.flag .c = true ↔ 0 ≤ d) ∧
      t.flag .v = (s.a.getLsbD 7 != (s.codeByte 1).getLsbD 7 && t.a.getLsbD 7 != s.a.getLsbD 7) ∧
      (t.flag .z = true ↔ t.a = 0#8) ∧ t.flag .n = t.a.getLsbD 7 ∧ SameFlagsBut [.c, .v, .z, .n] s t ∧
      t = { s with
        a := BitVec.ofInt 8 d
        p := t.p
        pc := s.pc + 2#16
        trace := [.memRead s.pc 0xE9#8, .memRead (s.pc + 1#16) (s.codeByte 1)]
        answer := some (.ok (Config.cyc .sbcImm)) }) ∧
    (s.codeByte 0 = 0xE6#8 → ∃ t ea v, step s = .next t ∧ ea.toNat = (s.codeByte 1).toNat ∧
      v = s.readByte ea + 1#8 ∧ t.readByte ea = v ∧ SameMemoryBut ea s t ∧
      (t.flag .z = true ↔ v = 0#8) ∧ t.flag .n = v.getLsbD 7 ∧ SameFlagsBut [.z, .n] s t ∧
      t = { s with
        mem := t.mem
        p := t.p
        pc := s.pc + 2#16
        trace := [.memRead s.pc 0xE6#8, .memRead (s.pc + 1#16) (s.codeByte 1), .memRead ea (s.readByte ea),
          .memWrite ea v]
        answer := some (.ok (Config.cyc .incZp)) }) ∧
    (s.codeByte 0 = 0xC9#8 → ∃ t r, step s = .next t ∧ r = s.a - s.codeByte 1 ∧
      (t.flag .z = true ↔ r = 0#8) ∧ t.flag .n = r.getLsbD 7 ∧
      (t.flag .c = true ↔ (s.codeByte 1).toNat ≤ s.a.toNat) ∧ SameFlagsBut [.c, .z, .n] s t ∧
      t = { s with
        p := t.p
        pc := s.pc + 2#16
        trace := [.memRead s.pc 0xC9#8, .memRead (s.pc + 1#16) (s.codeByte 1)]
        answer := some (.ok (Config.cyc .cmpImm)) })

/-- The branch (42_control.md R155, the spec's own decisions D8 and D11), set-carry (R160) and halt (R163, an inference the
spec marks as its own; log entry 13) as steps. -/
def Obligations.ControlStepsFollowTheirPseudocode : Prop :=
  ∀ s : State, s.run = .running →
    (s.codeByte 0 = 0xD0#8 → ∃ t, step s = .next t ∧
      t = { s with pc := t.pc, answer := t.answer, trace := t.trace } ∧
      (s.flag .z = false →
        (t.pc.toNat : Int) = ((s.pc.toNat : Int) + 2 + (s.codeByte 1).toInt) % 65536 ∧
        t.answer = some (.ok (Config.cyc .bneTaken))) ∧
      (s.flag .z = true → t.pc = s.pc + 2#16 ∧ t.answer = some (.ok (Config.cyc .bneNotTaken))) ∧
      Config.cyc .bneNotTaken < Config.cyc .bneTaken) ∧
    (s.codeByte 0 = 0x38#8 → ∃ t, step s = .next t ∧ t.flag .c = true ∧ SameFlagsBut [.c] s t ∧
      t = { s with pc := s.pc + 1#16, p := t.p, answer := some (.ok (Config.cyc .sec)),
                   trace := [.memRead s.pc 0x38#8] }) ∧
    (s.codeByte 0 = 0xFF#8 →
      step s = .next { s with pc := s.pc + 1#16, run := .halted, answer := some .halted,
                              trace := [.memRead s.pc 0xFF#8] })

/-- The worked examples of 41_arithmetic.md R128 and R133 and of 42_control.md R157. V of the second example and the address
0x8004 of the third are what the spec marks as its own inference. -/
def Obligations.SourceWorkedExamples : Prop :=
  (∀ s : State, s.a = 0x7F#8 → s.flag .c = false → ∃ t, exec (.adcImm 0x01#8) s = .next t ∧
    t.a = 0x80#8 ∧ t.flag .c = false ∧ t.flag .v = true ∧ t.flag .n = true ∧ t.flag .z = false) ∧
  (∀ s : State, s.a = 0x00#8 → s.flag .c = true → ∃ t, exec (.sbcImm 0x01#8) s = .next t ∧
    t.a = 0xFF#8 ∧ t.flag .c = false ∧ t.flag .z = false ∧ t.flag .n = true ∧ t.flag .v = false) ∧
  (∀ s : State, s.run = .running → s.pc = 0x800F#16 → s.flag .z = false → s.readByte 0x800F#16 = 0xD0#8 →
    s.readByte 0x8010#16 = 0xF3#8 → ∃ t, step s = .next t ∧ t.pc = 0x8004#16)

/-- The branch operand the assembler writes for a target reaches it from the address after the branch, and is refused exactly
when the signed distance is outside -128 to 127 (30_encoding.md R93, the spec's own decision D10; resolved labels, log entry
19). -/
def Obligations.AssembledBranchReachesItsTarget : Prop :=
  ∀ a target : Addr,
    (∀ rel, branchOperand a target = some rel → branchTarget (a + 2#16) rel = target) ∧
    (∀ rel : Byte, target = branchTarget (a + 2#16) rel → branchOperand a target = some rel)

/-! ## Rules over all instructions -/

/-- R121: after any instruction that updates Z and N, they are those of its 8-bit result; any other leaves both. -/
def Obligations.ZeroNegativeFlagLaw : Prop :=
  ∀ (i : Instr) (s : State), ∃ t, exec i s = .next t ∧
    match flagResult i s t with
    | some v => (t.flag .z = true ↔ v = 0#8) ∧ (t.flag .n = true ↔ v &&& 0x80#8 ≠ 0#8)
    | none => t.flag .z = s.flag .z ∧ t.flag .n = s.flag .n

/-- Every instruction leaves every flag it does not define, and the reserved bit; P.I, P.D and P.B are written by none. -/
def Obligations.OnlyDefinedFlagsAreWritten : Prop :=
  ∀ (i : Instr) (s : State), ∃ t, exec i s = .next t ∧ SameFlagsBut (flagsWritten i) s t ∧
    t.flag .i = s.flag .i ∧ t.flag .d = s.flag .d ∧ t.flag .b = s.flag .b

/-- 70_reset_and_hazards.md R205, the spec's own decisions D8 and D23 (log entries 4 and 13): the cost table, every entry
positive, a taken branch dearer, and each instruction answers its own entry, the halt none. -/
def Obligations.CycleCostsFollowTheTable : Prop :=
  (∀ e, 0 < Config.cyc e) ∧ Config.cyc .bneNotTaken < Config.cyc .bneTaken ∧
  (∀ (i : Instr) (s : State), ∃ t, exec i s = .next t ∧ t.answer = some (answerOf i (s.flag .z))) ∧
  (∀ s : State, s.run = .running → opcodeLength (s.readByte s.pc) = none →
    ∃ t, step s = .next t ∧ ∀ c, t.answer ≠ some (.ok c))

/-- R172: no decoded instruction raises the exception; only the fetch of an illegal byte does. -/
def Obligations.OnlyIllegalBytesRaiseDecodeFailure : Prop :=
  (∀ (i : Instr) (s : State), ∃ t, exec i s = .next t ∧ (∀ b, t.answer ≠ some (.decodeFailure b)) ∧
    (t.run = s.run ∨ t.run = .halted)) ∧
  (∀ s t : State, s.run = .running → step s = .next t →
    ((∃ b, t.answer = some (.decodeFailure b)) ↔ opcodeLength (s.readByte s.pc) = none))

/-- Where a step leaves PC: past the instruction, at the target of a taken branch, past an illegal byte (10_state.md R25, an
inference the spec marks as its own). -/
def Obligations.StepLeavesPcPastInstructionOrAtTarget : Prop :=
  ∀ s t : State, s.run = .running → step s = .next t →
    (s.codeByte 0 = 0xD0#8 ∧ s.flag .z = false →
      (t.pc.toNat : Int) = ((s.pc.toNat : Int) + 2 + (s.codeByte 1).toInt) % 65536) ∧
    (∀ n, opcodeLength (s.codeByte 0) = some n → ¬(s.codeByte 0 = 0xD0#8 ∧ s.flag .z = false) →
      t.pc.toNat = (s.pc.toNat + n) % 65536) ∧
    (opcodeLength (s.codeByte 0) = none → t.pc.toNat = (s.pc.toNat + 1) % 65536)

/-- No step changes X, Y or SP. -/
def Obligations.StepNeverChangesIndexOrStackRegisters : Prop :=
  ∀ s t : State, step s = .next t → SameIndexAndStack s t

/-- The transactions of a step, in order: the fetches, then the data read and the data write of the instruction (20_memory.md
R55, an inference the spec marks as its own; the order is its decision D14; the trace is the model's record, log entry 8). -/
def Obligations.StepMakesTheListedAccesses : Prop :=
  ∀ s t : State, s.run = .running → step s = .next t →
    (∀ i rest, decode s.codeWindow = .instr i rest →
      t.trace = (List.range (encode i).length).map
          (fun k => Access.memRead (s.pc + BitVec.ofNat 16 k) (s.readByte (s.pc + BitVec.ofNat 16 k))) ++
        dataAccesses i s) ∧
    (opcodeLength (s.readByte s.pc) = none → t.trace = [.memRead s.pc (s.readByte s.pc)])

/-- No step writes raw memory under the device windows, and no step but an absolute store changes a byte of raw memory above
page zero. -/
def Obligations.RawMemoryUnderTheWindowsIsNeverWritten : Prop :=
  ∀ (s t : State) (a : Addr), step s = .next t →
    (0x4000 ≤ a.toNat ∧ a.toNat < 0x6000 → t.readByte a = s.readByte a) ∧
    (256 ≤ a.toNat → s.codeByte 0 ≠ 0x8D#8 → t.readByte a = s.readByte a)

/-- No step but one of the absolute store changes a device. -/
def Obligations.OnlyAbsoluteStoreReachesDevices : Prop :=
  ∀ s t : State, step s = .next t → (s.run = .running → s.codeByte 0 ≠ 0x8D#8) → SameDisplay s t ∧ SameIo s t

/-- The dirty flag is set by a step's in-range display write, by nothing else, and cleared by no step, no reset and no host
operation (60_exceptions.md R182). That an out-of-range write does not set it is the spec's resolution C2, over the open
`DISP_CELLS` (log entries 5 and 13); that reset keeps it is the spec's decision D3 (log entry 13); the trace is the model's
record (log entry 8), and the host operations between steps are log entry 15. -/
def Obligations.DirtyFlagRecordsInRangeDisplayWrites : Prop :=
  (∀ s t : State, step s = .next t →
    (t.dirty = true ↔
      (s.dirty = true ∨ ∃ off v, Access.dispWrite off v ∈ t.trace ∧ off.toNat < Config.dispCells))) ∧
  (∀ s : State,
    s.applyReset.dirty = s.dirty ∧ (∀ a v, (s.writeWord a v).dirty = s.dirty) ∧
    (∀ bytes start, (s.loadProgram bytes start).dirty = s.dirty) ∧
    (∀ p, (s.readPort p).2.dirty = s.dirty) ∧ (∀ b, (s.enqueueInput b).dirty = s.dirty) ∧
    s.update.dirty = s.dirty ∧ s.render.2.dirty = s.dirty ∧ s.printStats.2.dirty = s.dirty ∧
    s.registerView.2.dirty = s.dirty)

/-- A step changes no display cell from 4096 up, whatever the display's size (60_exceptions.md R181, the spec's own decision
D9, log entry 5). -/
def Obligations.DisplayCellsFrom4096AreOutOfReach : Prop :=
  ∀ (s t : State) (k : Nat), step s = .next t → 4096 ≤ k → t.disp.read k = s.disp.read k

/-- A step appends to the write log exactly its port writes, emits exactly what they emit, and leaves the input queue
(60_exceptions.md R185 and R188, the spec's own decisions D15 and D16; the events' and the trace's fields are the model's,
log entries 7, 8 and 13). -/
def Obligations.WriteLogAndEventsGrowByPortWrites : Prop :=
  ∀ s t : State, step s = .next t → ∃ writes : List (Byte × Byte),
    writes.length ≤ 1 ∧ t.iolog = s.iolog ++ writes ∧
    (∀ w, w ∈ writes ↔ Access.portWrite w.1 w.2 ∈ t.trace) ∧
    t.events = s.events ++ writes.flatMap (fun w =>
      if w.1.toNat = 0 then [OutEvent.numericOut w.2] else if w.1.toNat = 1 then [OutEvent.charOut w.2] else []) ∧
    t.inq = s.inq

/-- Each port appears at sixteen addresses of the I/O window (20_memory.md R61, an inference the spec marks as its own). -/
def Obligations.PortsAreMirroredSixteenTimes : Prop :=
  ∀ (s : State) (p v : Byte) (k : Nat), k < 16 →
    s.storeDispatch (BitVec.ofNat 16 (0x5000 + 0x100 * k + p.toNat)) v = (s.portWrite p v).noteAccess (.portWrite p v)

/-- A raw store, by STA abs outside the windows, STA zp or INC zp, is seen by the next fetch of the byte it wrote, and a store
to a device window by no fetch (20_memory.md R73 and 70_reset_and_hazards.md R208, inferences the spec marks as its own; log
entry 13). -/
def Obligations.RawStoreIsSeenByTheNextFetch : Prop :=
  (∀ (s : State) (addr : Addr), ∃ t, exec (.staAbs addr) s = .next t ∧
    ∀ u : State, u.mem = t.mem → u.pc = addr →
      (addr.toNat < 0x4000 ∨ 0x6000 ≤ addr.toNat → u.fetchByte.1 = s.a) ∧
      (0x4000 ≤ addr.toNat ∧ addr.toNat < 0x6000 → u.fetchByte.1 = s.readByte addr)) ∧
  (∀ (s : State) (zp : Byte), ∃ t, exec (.staZp zp) s = .next t ∧
    ∀ u : State, u.mem = t.mem → u.pc = zpAddr zp → u.fetchByte.1 = s.a) ∧
  (∀ (s : State) (zp : Byte), ∃ t, exec (.incZp zp) s = .next t ∧
    ∀ u : State, u.mem = t.mem → u.pc = zpAddr zp →
      u.fetchByte.1.toNat = ((s.readByte (zpAddr zp)).toNat + 1) % 256)

/-- What no instruction reads: two machines that agree on PC, A, C, Z, raw memory and the run state, and differ anyhow in X,
Y, SP, the flags I, D, B, V and N and in the devices, step alike: same answer, same transactions, same agreement. -/
def Obligations.StepReadsOnlyPcACarryZeroAndMemory : Prop :=
  ∀ s t s' : State, CoreAgree s t → step s = .next s' →
    ∃ t', step t = .next t' ∧ CoreAgree s' t' ∧ s'.answer = t'.answer ∧ s'.trace = t'.trace

/-! ## Memory, the devices and the host's operations -/

/-- R48: a byte write sets that byte and changes nothing else. -/
def Obligations.ByteWriteSetsOneByte : Prop :=
  ∀ (s : State) (w : Addr) (v : Byte),
    (s.writeByte w v).readByte w = v ∧ SameMemoryBut w s (s.writeByte w v) ∧
    s.writeByte w v = { s with mem := (s.writeByte w v).mem }

/-- Two raw memories in canonical form that read the same at every address are the same data. The canonical form is the
model's choice (log entry 6); the bytes and their addresses are those of 20_memory.md R46 and R47. -/
def Obligations.CanonicalMemoriesWithEqualBytesAreEqual : Prop :=
  ∀ m m' : Memory, m.wf = true → m'.wf = true → (∀ a, m.read a = m'.read a) → m = m'

/-- R53: a word reads back as written at every address, the top of the space included. -/
def Obligations.WordWriteReadsBack : Prop :=
  ∀ (s : State) (a v : Addr),
    (s.writeWord a v).readWord a = v ∧
    ((s.writeWord a v).readByte a).toNat = v.toNat % 256 ∧
    ((s.writeWord a v).readByte (a + 1#16)).toNat = v.toNat / 256

/-- `load_program` copies the bytes into raw memory alone when they fit, and otherwise changes nothing (20_memory.md R56, its
exact limit being the spec's own decision D13, log entry 13). -/
def Obligations.LoadProgramCopiesOrIsRefused : Prop :=
  ∀ (s : State) (bytes : List Byte) (start : Addr),
    s.loadProgram bytes start = { s with mem := (s.loadProgram bytes start).mem } ∧
    (start.toNat + bytes.length ≤ 65536 → ∀ a : Addr,
      (∀ k, a.toNat = start.toNat + k → ∀ h : k < bytes.length, (s.loadProgram bytes start).readByte a = bytes[k]) ∧
      ((a.toNat < start.toNat ∨ start.toNat + bytes.length ≤ a.toNat) →
        (s.loadProgram bytes start).readByte a = s.readByte a)) ∧
    (65536 < start.toNat + bytes.length → s.loadProgram bytes start = s)

/-- A display write in range sets one cell and the dirty flag, out of range it changes nothing (60_exceptions.md R180, the
open size being the spec's decision D9, log entry 5). -/
def Obligations.DisplayWriteIsBoundsChecked : Prop :=
  ∀ (s : State) (off : Nat) (v : Byte),
    (off < Config.dispCells →
      (s.dispWrite off v).disp.read off = v ∧
      (∀ k, k ≠ off → (s.dispWrite off v).disp.read k = s.disp.read k) ∧
      s.dispWrite off v = { s with disp := (s.dispWrite off v).disp, dirty := true }) ∧
    (Config.dispCells ≤ off → s.dispWrite off v = s)

/-- A port write records the value, appends to the log and emits on ports 0 and 1 (60_exceptions.md R185, the output events
being the spec's own decision D15, log entries 7 and 13). -/
def Obligations.PortWriteRecordsLogsAndEmits : Prop :=
  ∀ (s : State) (p v : Byte), ∃ t, t = s.portWrite p v ∧
    t.ports.lookup p = some v ∧ (∀ q, q ≠ p → t.ports.lookup q = s.ports.lookup q) ∧
    t.iolog = s.iolog ++ [(p, v)] ∧
    (p = 0x00#8 → t.events = s.events ++ [.numericOut v]) ∧ (p = 0x01#8 → t.events = s.events ++ [.charOut v]) ∧
    (p ≠ 0x00#8 ∧ p ≠ 0x01#8 → t.events = s.events) ∧
    t = { s with ports := t.ports, iolog := t.iolog, events := t.events }

/-- A port read takes the oldest input byte whatever the port, else gives the port's value, else 0 (60_exceptions.md R187), and
`enqueue_input` puts a byte behind those that wait and changes nothing else (R188, the spec's own decision D16, log entry
13). -/
def Obligations.PortReadDrainsTheQueueFirst : Prop :=
  ∀ (s : State) (p : Byte),
    (∀ b rest, s.inq = b :: rest → s.readPort p = (b, { s with inq := rest })) ∧
    (s.inq = [] → (s.readPort p).2 = s ∧
      (∀ v, s.ports.lookup p = some v → (s.readPort p).1 = v) ∧
      (s.ports.lookup p = none → (s.readPort p).1 = 0x00#8)) ∧
    (∀ b, s.enqueueInput b = { s with inq := s.inq ++ [b] }) ∧
    (∀ b, s.inq = [] → (s.enqueueInput b).readPort p = (b, s))

/-- Rendering maps each cell by the printable range and changes nothing (60_exceptions.md R183; the placeholder is a symbol, log
entry 14). The register view shows PC, SP, A, X, Y, P and the run state (10_state.md R42, the spec's decision D25), and
neither it nor `print_stats` nor `update` changes anything (R189, R190, the spec's decision D20; log entry 13). -/
def Obligations.RenderShowsPrintableCellsAndChangesNothing : Prop :=
  ∀ s : State,
    s.render.2 = s ∧ s.printStats.2 = s ∧ s.registerView.2 = s ∧ s.update = s ∧
    s.registerView.1 = { pc := s.pc, sp := s.sp, a := s.a, x := s.x, y := s.y, p := s.p, run := s.run } ∧
    s.render.1.length = Config.dispCells ∧
    ∀ off, off < Config.dispCells →
      (0x20 ≤ (s.disp.read off).toNat ∧ (s.disp.read off).toNat < 0x7F →
        s.render.1[off]? = some (.character (s.disp.read off))) ∧
      ((s.disp.read off).toNat < 0x20 ∨ 0x7F ≤ (s.disp.read off).toNat → s.render.1[off]? = some .placeholder)

/-- The reset operation, from every state (70_reset_and_hazards.md R200; that it keeps A, X and Y is the spec's own decision
D3); applying it twice is applying it once (R201, its decision D24; log entry 13). -/
def Obligations.ResetLoadsTheVector : Prop :=
  ∀ s : State, ∃ vector : Addr,
    vector.toNat = (s.readByte 0xFFFC#16).toNat + 256 * (s.readByte 0xFFFD#16).toNat ∧
    s.applyReset = { s with pc := vector, sp := 0xFF#8, p := 0x20#8, run := .running } ∧
    s.applyReset.applyReset = s.applyReset

/-- A stopped machine stays as it is for any number of steps: no step leaves Halted or Faulted (60_exceptions.md R177, the
spec's own decisions D4 and D5, log entries 11 and 13). -/
def Obligations.StoppedMachineStaysStopped : Prop :=
  ∀ (s : State), s.stopped → ∀ k, ∃ u, runSteps k s = .next u ∧ SameState s u

/-- The state after the first reset with nothing loaded is power-on with reset applied. A, X and Y are the model's constants
for the open parameters A0, X0 and Y0 (log entry 3). -/
def Obligations.ResetStateIsResetOfPowerOn : Prop :=
  State.powerOn.run = .notReset ∧ State.powerOn.applyReset = State.reset ∧
  State.reset.a = Config.a0 ∧ State.reset.x = Config.x0 ∧ State.reset.y = Config.y0

/-- Where the vector's bytes are zero reset gives PC 0x0000, and where the byte there is zero too the first step answers
`DecodeFailure(0x00)` and leaves PC at 0x0001; power-on is such a state (70_reset_and_hazards.md R212, an inference the spec
marks as its own). -/
def Obligations.FirstStepWithoutProgramFails : Prop :=
  (∀ s : State, s.readByte 0xFFFC#16 = 0x00#8 → s.readByte 0xFFFD#16 = 0x00#8 →
    s.applyReset.pc = 0x0000#16 ∧
    (s.readByte 0x0000#16 = 0x00#8 →
      ∃ t, step s.applyReset = .next t ∧ t.answer = some (.decodeFailure 0x00#8) ∧ t.pc = 0x0001#16)) ∧
  (∀ a : Addr, State.powerOn.readByte a = 0x00#8)

/-- The byte of P after reset by its flags, bit 5 being 1: the formula of 10_state.md R27, in every state that keeps the
invariant (bit 5 is the spec's own decision D22, log entry 13). -/
def Obligations.StatusByteIsItsFlagsAndTheReservedBit : Prop :=
  ∀ s : State, s.Inv → s.run ≠ .notReset →
    s.registerView.1.p.toNat =
      128 * (s.flag .n).toNat + 64 * (s.flag .v).toNat + 32 + 16 * (s.flag .b).toNat + 8 * (s.flag .d).toNat +
      4 * (s.flag .i).toNat + 2 * (s.flag .z).toNat + (s.flag .c).toNat

/-- The invariant holds at power-on and at reset. That X and Y are there the constants X0 and Y0 is the model's one value for
every run (log entry 3). -/
def Obligations.InvariantHoldsAtPowerOnAndReset : Prop :=
  State.powerOn.Inv ∧ State.reset.Inv

/-- Every step keeps the invariant: canonical memories (the model's form, log entry 6), the registers no instruction writes
(log entry 3), the reserved bit and the unused flags (the spec's own decisions D7 and D22, log entry 13), the I/O
controller's map and outputs as its log says (log entry 7), a clean display while not dirty, a latched byte that is no
opcode. -/
def Obligations.InvariantIsKeptByEveryStep : Prop :=
  ∀ s t : State, s.Inv → step s = .next t → t.Inv

/-- Every host operation keeps the invariant, reset from any run state among them (the operations between steps are log entry
15). -/
def Obligations.InvariantIsKeptByHostOperations : Prop :=
  ∀ s : State, s.Inv →
    s.applyReset.Inv ∧ (∀ a v, (s.writeWord a v).Inv) ∧ (∀ bytes start, (s.loadProgram bytes start).Inv) ∧
    (∀ p, (s.readPort p).2.Inv) ∧ (∀ b, (s.enqueueInput b).Inv) ∧ s.update.Inv

/-- An instruction of the opcode table placed at PC is the one the next step runs (log entry 9: the placing is the model's
way to stand for a program loaded from outside). -/
def Obligations.PlacedTableWordIsRunNext : Prop :=
  ∀ (s : State) (nbits w : Nat) (i : Instr), decodeTableWord nbits w = some i →
    step (s.withFetchWord nbits w) = exec i ((s.withFetchWord nbits w).fetched (encode i).length)

end Statements
end

