-- ==== Sys2Proof/Laws/Cells.lean ====
section
/-!
SUPPORT. The sparse stores: reading after writing, for every list, and the canonical form kept by every operation.
-/

namespace Sys2Proof.Machine

theorem cellFind_erase_same (l : List Host.Cell) (k : Nat) : cellFind (cellErase l k) k = none := by
  induction l with
  | nil => rfl
  | cons c rest ih =>
    by_cases h : c.1 = k
    · simpa [cellErase, h] using ih
    · simpa [cellErase, cellFind, h] using ih

theorem cellFind_erase_other (l : List Host.Cell) {k j : Nat} (hj : j ≠ k) :
    cellFind (cellErase l k) j = cellFind l j := by
  induction l with
  | nil => rfl
  | cons c rest ih =>
    by_cases h : c.1 = k
    · have hc : c.1 ≠ j := fun e => hj (e ▸ h)
      simpa [cellErase, cellFind, h, hc, Ne.symm hj] using ih
    · by_cases h' : c.1 = j
      · simp [cellErase, cellFind, h', hj]
      · simpa [cellErase, cellFind, h, h'] using ih

theorem cellFind_insert_same (l : List Host.Cell) (k : Nat) (v : Byte) (h : cellFind l k = none) :
    cellFind (cellInsert l k v) k = some v := by
  induction l with
  | nil => simp [cellInsert, cellFind]
  | cons c rest ih =>
    by_cases hc : c.1 = k
    · simp [cellFind, hc] at h
    · have hr : cellFind rest k = none := by simpa [cellFind, hc] using h
      by_cases hlt : k < c.1
      · simp [cellInsert, hlt, cellFind]
      · simpa [cellInsert, hlt, cellFind, hc] using ih hr

theorem cellFind_insert_other (l : List Host.Cell) {k j : Nat} (v : Byte) (hj : j ≠ k) :
    cellFind (cellInsert l k v) j = cellFind l j := by
  induction l with
  | nil => simp [cellInsert, cellFind, Ne.symm hj]
  | cons c rest ih =>
    by_cases hlt : k < c.1
    · simp [cellInsert, hlt, cellFind, Ne.symm hj]
    · simp only [cellInsert, hlt, if_false]
      by_cases hc : c.1 = j
      · simp [cellFind, hc]
      · simpa [cellFind, hc] using ih

/-- Finding after putting, at the same number. -/
@[simp] theorem cellFind_put_same (l : List Host.Cell) (k : Nat) (v : Byte) : cellFind (cellPut l k v) k = some v :=
  cellFind_insert_same _ k v (cellFind_erase_same l k)

/-- Finding after putting, at another number. -/
theorem cellFind_put_other (l : List Host.Cell) {k j : Nat} (v : Byte) (hj : j ≠ k) :
    cellFind (cellPut l k v) j = cellFind l j :=
  (cellFind_insert_other _ v hj).trans (cellFind_erase_other l hj)

/-- Reading after writing, at the same number. -/
@[simp] theorem cellRead_write_same (d : Byte) (l : List Host.Cell) (k : Nat) (v : Byte) :
    cellRead d (cellWrite d l k v) k = v := by
  by_cases h : v = d
  · simp [cellRead, cellWrite, h, cellFind_erase_same]
  · simp [cellRead, cellWrite, h]

/-- Reading after writing, at another number. -/
theorem cellRead_write_other (d : Byte) (l : List Host.Cell) {k j : Nat} (v : Byte) (hj : j ≠ k) :
    cellRead d (cellWrite d l k v) j = cellRead d l j := by
  by_cases h : v = d
  · simp [cellRead, cellWrite, h, cellFind_erase_other l hj]
  · simp [cellRead, cellWrite, h, cellFind_put_other l v hj]

/-! ### The canonical form -/

/-- `cellsRising` of a list, by its head. -/
theorem cellsRising_cons (c : Host.Cell) (l : List Host.Cell) :
    cellsRising (c :: l) = true ↔ (∀ e ∈ l, c.1 < e.1) ∧ cellsRising l = true := by
  induction l generalizing c with
  | nil => simp [cellsRising]
  | cons e rest ih =>
    rw [cellsRising, Bool.and_eq_true, decide_eq_true_eq, ih e]
    constructor
    · rintro ⟨hce, he, hr⟩
      refine ⟨fun f hf => ?_, he, hr⟩
      rcases List.mem_cons.1 hf with rfl | hf
      · exact hce
      · exact Nat.lt_trans hce (he f hf)
    · rintro ⟨hall, he, hr⟩
      exact ⟨hall e (by simp), he, hr⟩

/-- Erasing leaves only entries of the list. -/
theorem mem_of_mem_erase {l : List Host.Cell} {k : Nat} {c : Host.Cell} (h : c ∈ cellErase l k) :
    c ∈ l ∧ c.1 ≠ k := by
  induction l with
  | nil => simp [cellErase] at h
  | cons e rest ih =>
    by_cases he : e.1 = k
    · have := ih (by simpa [cellErase, he] using h)
      exact ⟨List.mem_cons_of_mem _ this.1, this.2⟩
    · rcases List.mem_cons.1 (by simpa [cellErase, he] using h) with rfl | h'
      · exact ⟨by simp, he⟩
      · exact ⟨List.mem_cons_of_mem _ (ih h').1, (ih h').2⟩

/-- Inserting adds only the new entry. -/
theorem mem_of_mem_insert {l : List Host.Cell} {k : Nat} {v : Byte} {c : Host.Cell} (h : c ∈ cellInsert l k v) :
    c = (k, v) ∨ c ∈ l := by
  induction l with
  | nil => simpa [cellInsert] using h
  | cons e rest ih =>
    by_cases hlt : k < e.1
    · simpa [cellInsert, hlt] using h
    · rcases List.mem_cons.1 (by simpa [cellInsert, hlt] using h) with rfl | h'
      · simp
      · rcases ih h' with rfl | h''
        · simp
        · exact .inr (List.mem_cons_of_mem _ h'')

theorem cellsRising_erase {l : List Host.Cell} (k : Nat) (h : cellsRising l = true) :
    cellsRising (cellErase l k) = true := by
  induction l with
  | nil => rfl
  | cons c rest ih =>
    have ⟨hlow, hrest⟩ := (cellsRising_cons c rest).1 h
    by_cases hc : c.1 = k
    · simpa [cellErase, hc] using ih hrest
    · simp only [cellErase, hc, if_false]
      exact (cellsRising_cons _ _).2 ⟨fun e he => hlow e (mem_of_mem_erase he).1, ih hrest⟩

theorem cellsRising_insert {l : List Host.Cell} (k : Nat) (v : Byte) (hk : ∀ c ∈ l, c.1 ≠ k)
    (h : cellsRising l = true) : cellsRising (cellInsert l k v) = true := by
  induction l with
  | nil => rfl
  | cons c rest ih =>
    have ⟨hlow, hrest⟩ := (cellsRising_cons c rest).1 h
    by_cases hlt : k < c.1
    · simp only [cellInsert, hlt, if_true]
      refine (cellsRising_cons _ _).2 ⟨fun e he => ?_, h⟩
      rcases List.mem_cons.1 he with rfl | he
      · exact hlt
      · exact Nat.lt_trans hlt (hlow e he)
    · simp only [cellInsert, hlt, if_false]
      have hck : c.1 ≠ k := hk c (by simp)
      refine (cellsRising_cons _ _).2 ⟨fun e he => ?_, ih (fun e he => hk e (List.mem_cons_of_mem _ he)) hrest⟩
      rcases mem_of_mem_insert he with rfl | he
      · show c.1 < k
        omega
      · exact hlow e he

/-- Putting keeps the order. -/
theorem cellsRising_put {l : List Host.Cell} (k : Nat) (v : Byte) (h : cellsRising l = true) :
    cellsRising (cellPut l k v) = true :=
  cellsRising_insert k v (fun _ hc => (mem_of_mem_erase hc).2) (cellsRising_erase k h)

/-- Writing keeps the order. -/
theorem cellsRising_write (d : Byte) {l : List Host.Cell} (k : Nat) (v : Byte) (h : cellsRising l = true) :
    cellsRising (cellWrite d l k v) = true := by
  unfold cellWrite
  split
  · exact cellsRising_erase k h
  · exact cellsRising_put k v h

/-- Putting adds at most the new entry. -/
theorem mem_of_mem_put {l : List Host.Cell} {k : Nat} {v : Byte} {c : Host.Cell} (h : c ∈ cellPut l k v) :
    c = (k, v) ∨ c ∈ l :=
  (mem_of_mem_insert h).imp id fun h => (mem_of_mem_erase h).1

/-- Writing adds at most the new entry, and that only where it is not what an unlisted number reads as. -/
theorem mem_of_mem_write {d : Byte} {l : List Host.Cell} {k : Nat} {v : Byte} {c : Host.Cell}
    (h : c ∈ cellWrite d l k v) : (c = (k, v) ∧ v ≠ d) ∨ c ∈ l := by
  unfold cellWrite at h
  split at h
  · exact .inr (mem_of_mem_erase h).1
  · exact (mem_of_mem_put h).imp (⟨·, ‹_›⟩) id

/-- Putting below the bound keeps the bound. -/
theorem cellsBelow_put {bound : Nat} {l : List Host.Cell} {k : Nat} (v : Byte) (hk : k < bound)
    (h : cellsBelow bound l = true) : cellsBelow bound (cellPut l k v) = true := by
  simp only [cellsBelow, List.all_eq_true, decide_eq_true_eq] at *
  intro c hc
  rcases mem_of_mem_put hc with rfl | hc
  · exact hk
  · exact h c hc

/-- Writing below the bound keeps the bound. -/
theorem cellsBelow_write {bound : Nat} (d : Byte) {l : List Host.Cell} {k : Nat} (v : Byte) (hk : k < bound)
    (h : cellsBelow bound l = true) : cellsBelow bound (cellWrite d l k v) = true := by
  simp only [cellsBelow, List.all_eq_true, decide_eq_true_eq] at *
  intro c hc
  rcases mem_of_mem_write hc with ⟨rfl, -⟩ | hc
  · exact hk
  · exact h c hc

/-- Writing never lists what an unlisted number reads as. -/
theorem cellsListed_write (d : Byte) {l : List Host.Cell} (k : Nat) (v : Byte) (h : cellsListed d l = true) :
    cellsListed d (cellWrite d l k v) = true := by
  simp only [cellsListed, List.all_eq_true, decide_eq_true_eq] at *
  intro c hc
  rcases mem_of_mem_write hc with ⟨rfl, hv⟩ | hc
  · exact hv
  · exact h c hc

end Sys2Proof.Machine
end

