-- ==== Sys2Proof/Laws/Decode.lean ====
section
/-!
SUPPORT. The decoder and the encoder by opcode byte: each table read back gives the other (spec 30_encoding.md R83 to R85).
-/

namespace Sys2Proof

/-- The decoder reads a tag's opcode as that tag. -/
@[simp] theorem decodeOpcode_opcodeOf (t : Tag) : decodeOpcode (opcodeOf t) = .tag t := by cases t <;> rfl

/-- A byte that decodes to a tag is that tag's opcode. -/
theorem eq_opcodeOf_of_decodeOpcode {b : Byte} {t : Tag} (h : decodeOpcode b = .tag t) : b = opcodeOf t := by
  unfold decodeOpcode at h
  repeat' split at h
  all_goals first
    | (cases h; assumption)
    | cases h

/-- All the decoder can answer for a byte (R85). -/
theorem decodeOpcode_cases (b : Byte) :
    (∃ t, decodeOpcode b = .tag t ∧ b = opcodeOf t) ∨
    (decodeOpcode b = .unknownOpcode b ∧ ∀ t, b ≠ opcodeOf t) := by
  cases h : decodeOpcode b with
  | tag t => exact .inl ⟨t, rfl, eq_opcodeOf_of_decodeOpcode h⟩
  | unknownOpcode c =>
    refine .inr ⟨?_, fun t e => ?_⟩
    · unfold decodeOpcode at h
      repeat' split at h
      all_goals first
        | exact h.symm
        | cases h
    · subst e
      simp at h

/-- The length list of R82 is the operand-byte column of R84 plus one. -/
@[simp] theorem opcodeLength_opcodeOf (t : Tag) : opcodeLength (opcodeOf t) = some (operandBytes t + 1) := by
  cases t <;> rfl

/-- A byte with a length is some tag's opcode. -/
theorem exists_opcodeOf_of_opcodeLength {b : Byte} {n : Nat} (h : opcodeLength b = some n) :
    ∃ t, b = opcodeOf t := by
  unfold opcodeLength at h
  split at h
  · rename_i hb
    rcases hb with rfl | rfl
    · exact ⟨.setCarryFlag, rfl⟩
    · exact ⟨.halt, rfl⟩
  · split at h
    · rename_i hb
      exact ⟨.storeAccumulatorAbsolute, hb⟩
    · split at h
      · rename_i hb
        rcases hb with rfl | rfl | rfl | rfl | rfl | rfl | rfl | rfl
        exacts [⟨.loadAccumulatorImmediate, rfl⟩, ⟨.loadAccumulatorZeroPage, rfl⟩, ⟨.storeAccumulatorZeroPage, rfl⟩,
          ⟨.addWithCarryImmediate, rfl⟩, ⟨.subtractWithCarryImmediate, rfl⟩, ⟨.incrementZeroPage, rfl⟩,
          ⟨.compareImmediate, rfl⟩, ⟨.branchIfNotEqual, rfl⟩]
      · cases h

/-- A byte without a length is no tag's opcode. -/
theorem opcodeLength_eq_none {b : Byte} : opcodeLength b = none ↔ ∀ t, b ≠ opcodeOf t := by
  constructor
  · rintro h t rfl
    simp at h
  · intro h
    cases hb : opcodeLength b with
    | none => rfl
    | some n =>
      obtain ⟨t, ht⟩ := exists_opcodeOf_of_opcodeLength hb
      exact absurd ht (h t)

/-- The operand bytes of an instruction are as many as its tag asks for. -/
@[simp] theorem length_operandsOf (i : Instr) : (operandsOf i).length = operandBytes i.tag := by cases i <;> rfl

/-- The tag of an assembled instruction. -/
@[simp] theorem tag_assemble (t : Tag) (ops : List Byte) : (assemble t ops).tag = t := by cases t <;> rfl

end Sys2Proof
end

