-- ==== Sys2Proof/Laws/State.lean ====
section
/-! SUPPORT. One lemma per field per update of the state, and what a flag and a byte of memory read as after it. -/

namespace Sys2Proof.Machine

variable (s : State)

/-! ### setA -/

@[simp] theorem State.setA_pc (v : Byte) : (s.setA v).pc = s.pc := rfl
@[simp] theorem State.setA_sp (v : Byte) : (s.setA v).sp = s.sp := rfl
@[simp] theorem State.setA_a (v : Byte) : (s.setA v).a = v := rfl
@[simp] theorem State.setA_x (v : Byte) : (s.setA v).x = s.x := rfl
@[simp] theorem State.setA_y (v : Byte) : (s.setA v).y = s.y := rfl
@[simp] theorem State.setA_p (v : Byte) : (s.setA v).p = s.p := rfl
@[simp] theorem State.setA_run (v : Byte) : (s.setA v).run = s.run := rfl
@[simp] theorem State.setA_mem (v : Byte) : (s.setA v).mem = s.mem := rfl
@[simp] theorem State.setA_disp (v : Byte) : (s.setA v).disp = s.disp := rfl
@[simp] theorem State.setA_dirty (v : Byte) : (s.setA v).dirty = s.dirty := rfl
@[simp] theorem State.setA_ports (v : Byte) : (s.setA v).ports = s.ports := rfl
@[simp] theorem State.setA_iolog (v : Byte) : (s.setA v).iolog = s.iolog := rfl
@[simp] theorem State.setA_inq (v : Byte) : (s.setA v).inq = s.inq := rfl
@[simp] theorem State.setA_events (v : Byte) : (s.setA v).events = s.events := rfl
@[simp] theorem State.setA_answer (v : Byte) : (s.setA v).answer = s.answer := rfl
@[simp] theorem State.setA_trace (v : Byte) : (s.setA v).trace = s.trace := rfl
@[simp] theorem State.setA_flag (v : Byte) (g : Flag) : (s.setA v).flag g = s.flag g := rfl
@[simp] theorem State.setA_readByte (v : Byte) (k : Addr) : (s.setA v).readByte k = s.readByte k := rfl

/-! ### setPc -/

@[simp] theorem State.setPc_pc (v : Addr) : (s.setPc v).pc = v := rfl
@[simp] theorem State.setPc_sp (v : Addr) : (s.setPc v).sp = s.sp := rfl
@[simp] theorem State.setPc_a (v : Addr) : (s.setPc v).a = s.a := rfl
@[simp] theorem State.setPc_x (v : Addr) : (s.setPc v).x = s.x := rfl
@[simp] theorem State.setPc_y (v : Addr) : (s.setPc v).y = s.y := rfl
@[simp] theorem State.setPc_p (v : Addr) : (s.setPc v).p = s.p := rfl
@[simp] theorem State.setPc_run (v : Addr) : (s.setPc v).run = s.run := rfl
@[simp] theorem State.setPc_mem (v : Addr) : (s.setPc v).mem = s.mem := rfl
@[simp] theorem State.setPc_disp (v : Addr) : (s.setPc v).disp = s.disp := rfl
@[simp] theorem State.setPc_dirty (v : Addr) : (s.setPc v).dirty = s.dirty := rfl
@[simp] theorem State.setPc_ports (v : Addr) : (s.setPc v).ports = s.ports := rfl
@[simp] theorem State.setPc_iolog (v : Addr) : (s.setPc v).iolog = s.iolog := rfl
@[simp] theorem State.setPc_inq (v : Addr) : (s.setPc v).inq = s.inq := rfl
@[simp] theorem State.setPc_events (v : Addr) : (s.setPc v).events = s.events := rfl
@[simp] theorem State.setPc_answer (v : Addr) : (s.setPc v).answer = s.answer := rfl
@[simp] theorem State.setPc_trace (v : Addr) : (s.setPc v).trace = s.trace := rfl
@[simp] theorem State.setPc_flag (v : Addr) (g : Flag) : (s.setPc v).flag g = s.flag g := rfl
@[simp] theorem State.setPc_readByte (v : Addr) (k : Addr) : (s.setPc v).readByte k = s.readByte k := rfl

/-! ### setFlag -/

@[simp] theorem State.setFlag_pc (f : Flag) (on : Bool) : (s.setFlag f on).pc = s.pc := rfl
@[simp] theorem State.setFlag_sp (f : Flag) (on : Bool) : (s.setFlag f on).sp = s.sp := rfl
@[simp] theorem State.setFlag_a (f : Flag) (on : Bool) : (s.setFlag f on).a = s.a := rfl
@[simp] theorem State.setFlag_x (f : Flag) (on : Bool) : (s.setFlag f on).x = s.x := rfl
@[simp] theorem State.setFlag_y (f : Flag) (on : Bool) : (s.setFlag f on).y = s.y := rfl
@[simp] theorem State.setFlag_p (f : Flag) (on : Bool) : (s.setFlag f on).p = writeFlag s.p f on := rfl
@[simp] theorem State.setFlag_run (f : Flag) (on : Bool) : (s.setFlag f on).run = s.run := rfl
@[simp] theorem State.setFlag_mem (f : Flag) (on : Bool) : (s.setFlag f on).mem = s.mem := rfl
@[simp] theorem State.setFlag_disp (f : Flag) (on : Bool) : (s.setFlag f on).disp = s.disp := rfl
@[simp] theorem State.setFlag_dirty (f : Flag) (on : Bool) : (s.setFlag f on).dirty = s.dirty := rfl
@[simp] theorem State.setFlag_ports (f : Flag) (on : Bool) : (s.setFlag f on).ports = s.ports := rfl
@[simp] theorem State.setFlag_iolog (f : Flag) (on : Bool) : (s.setFlag f on).iolog = s.iolog := rfl
@[simp] theorem State.setFlag_inq (f : Flag) (on : Bool) : (s.setFlag f on).inq = s.inq := rfl
@[simp] theorem State.setFlag_events (f : Flag) (on : Bool) : (s.setFlag f on).events = s.events := rfl
@[simp] theorem State.setFlag_answer (f : Flag) (on : Bool) : (s.setFlag f on).answer = s.answer := rfl
@[simp] theorem State.setFlag_trace (f : Flag) (on : Bool) : (s.setFlag f on).trace = s.trace := rfl
@[simp] theorem State.setFlag_readByte (f : Flag) (on : Bool) (k : Addr) : (s.setFlag f on).readByte k = s.readByte k := rfl

/-! ### setZN -/

@[simp] theorem State.setZN_pc (v : Byte) : (s.setZN v).pc = s.pc := rfl
@[simp] theorem State.setZN_sp (v : Byte) : (s.setZN v).sp = s.sp := rfl
@[simp] theorem State.setZN_a (v : Byte) : (s.setZN v).a = s.a := rfl
@[simp] theorem State.setZN_x (v : Byte) : (s.setZN v).x = s.x := rfl
@[simp] theorem State.setZN_y (v : Byte) : (s.setZN v).y = s.y := rfl
@[simp] theorem State.setZN_p (v : Byte) : (s.setZN v).p = writeFlag (writeFlag s.p .z (zeroFlag v)) .n (negativeFlag v) := rfl
@[simp] theorem State.setZN_run (v : Byte) : (s.setZN v).run = s.run := rfl
@[simp] theorem State.setZN_mem (v : Byte) : (s.setZN v).mem = s.mem := rfl
@[simp] theorem State.setZN_disp (v : Byte) : (s.setZN v).disp = s.disp := rfl
@[simp] theorem State.setZN_dirty (v : Byte) : (s.setZN v).dirty = s.dirty := rfl
@[simp] theorem State.setZN_ports (v : Byte) : (s.setZN v).ports = s.ports := rfl
@[simp] theorem State.setZN_iolog (v : Byte) : (s.setZN v).iolog = s.iolog := rfl
@[simp] theorem State.setZN_inq (v : Byte) : (s.setZN v).inq = s.inq := rfl
@[simp] theorem State.setZN_events (v : Byte) : (s.setZN v).events = s.events := rfl
@[simp] theorem State.setZN_answer (v : Byte) : (s.setZN v).answer = s.answer := rfl
@[simp] theorem State.setZN_trace (v : Byte) : (s.setZN v).trace = s.trace := rfl
@[simp] theorem State.setZN_readByte (v : Byte) (k : Addr) : (s.setZN v).readByte k = s.readByte k := rfl

/-! ### writeByte -/

@[simp] theorem State.writeByte_pc (w : Addr) (v : Byte) : (s.writeByte w v).pc = s.pc := rfl
@[simp] theorem State.writeByte_sp (w : Addr) (v : Byte) : (s.writeByte w v).sp = s.sp := rfl
@[simp] theorem State.writeByte_a (w : Addr) (v : Byte) : (s.writeByte w v).a = s.a := rfl
@[simp] theorem State.writeByte_x (w : Addr) (v : Byte) : (s.writeByte w v).x = s.x := rfl
@[simp] theorem State.writeByte_y (w : Addr) (v : Byte) : (s.writeByte w v).y = s.y := rfl
@[simp] theorem State.writeByte_p (w : Addr) (v : Byte) : (s.writeByte w v).p = s.p := rfl
@[simp] theorem State.writeByte_run (w : Addr) (v : Byte) : (s.writeByte w v).run = s.run := rfl
@[simp] theorem State.writeByte_mem (w : Addr) (v : Byte) : (s.writeByte w v).mem = s.mem.write w v := rfl
@[simp] theorem State.writeByte_disp (w : Addr) (v : Byte) : (s.writeByte w v).disp = s.disp := rfl
@[simp] theorem State.writeByte_dirty (w : Addr) (v : Byte) : (s.writeByte w v).dirty = s.dirty := rfl
@[simp] theorem State.writeByte_ports (w : Addr) (v : Byte) : (s.writeByte w v).ports = s.ports := rfl
@[simp] theorem State.writeByte_iolog (w : Addr) (v : Byte) : (s.writeByte w v).iolog = s.iolog := rfl
@[simp] theorem State.writeByte_inq (w : Addr) (v : Byte) : (s.writeByte w v).inq = s.inq := rfl
@[simp] theorem State.writeByte_events (w : Addr) (v : Byte) : (s.writeByte w v).events = s.events := rfl
@[simp] theorem State.writeByte_answer (w : Addr) (v : Byte) : (s.writeByte w v).answer = s.answer := rfl
@[simp] theorem State.writeByte_trace (w : Addr) (v : Byte) : (s.writeByte w v).trace = s.trace := rfl
@[simp] theorem State.writeByte_flag (w : Addr) (v : Byte) (g : Flag) : (s.writeByte w v).flag g = s.flag g := rfl

/-! ### noteAccess -/

@[simp] theorem State.noteAccess_pc (t : Access) : (s.noteAccess t).pc = s.pc := rfl
@[simp] theorem State.noteAccess_sp (t : Access) : (s.noteAccess t).sp = s.sp := rfl
@[simp] theorem State.noteAccess_a (t : Access) : (s.noteAccess t).a = s.a := rfl
@[simp] theorem State.noteAccess_x (t : Access) : (s.noteAccess t).x = s.x := rfl
@[simp] theorem State.noteAccess_y (t : Access) : (s.noteAccess t).y = s.y := rfl
@[simp] theorem State.noteAccess_p (t : Access) : (s.noteAccess t).p = s.p := rfl
@[simp] theorem State.noteAccess_run (t : Access) : (s.noteAccess t).run = s.run := rfl
@[simp] theorem State.noteAccess_mem (t : Access) : (s.noteAccess t).mem = s.mem := rfl
@[simp] theorem State.noteAccess_disp (t : Access) : (s.noteAccess t).disp = s.disp := rfl
@[simp] theorem State.noteAccess_dirty (t : Access) : (s.noteAccess t).dirty = s.dirty := rfl
@[simp] theorem State.noteAccess_ports (t : Access) : (s.noteAccess t).ports = s.ports := rfl
@[simp] theorem State.noteAccess_iolog (t : Access) : (s.noteAccess t).iolog = s.iolog := rfl
@[simp] theorem State.noteAccess_inq (t : Access) : (s.noteAccess t).inq = s.inq := rfl
@[simp] theorem State.noteAccess_events (t : Access) : (s.noteAccess t).events = s.events := rfl
@[simp] theorem State.noteAccess_answer (t : Access) : (s.noteAccess t).answer = s.answer := rfl
@[simp] theorem State.noteAccess_trace (t : Access) : (s.noteAccess t).trace = s.trace ++ [t] := rfl
@[simp] theorem State.noteAccess_flag (t : Access) (g : Flag) : (s.noteAccess t).flag g = s.flag g := rfl
@[simp] theorem State.noteAccess_readByte (t : Access) (k : Addr) : (s.noteAccess t).readByte k = s.readByte k := rfl

/-! ### busWrite -/

@[simp] theorem State.busWrite_pc (w : Addr) (v : Byte) : (s.busWrite w v).pc = s.pc := rfl
@[simp] theorem State.busWrite_sp (w : Addr) (v : Byte) : (s.busWrite w v).sp = s.sp := rfl
@[simp] theorem State.busWrite_a (w : Addr) (v : Byte) : (s.busWrite w v).a = s.a := rfl
@[simp] theorem State.busWrite_x (w : Addr) (v : Byte) : (s.busWrite w v).x = s.x := rfl
@[simp] theorem State.busWrite_y (w : Addr) (v : Byte) : (s.busWrite w v).y = s.y := rfl
@[simp] theorem State.busWrite_p (w : Addr) (v : Byte) : (s.busWrite w v).p = s.p := rfl
@[simp] theorem State.busWrite_run (w : Addr) (v : Byte) : (s.busWrite w v).run = s.run := rfl
@[simp] theorem State.busWrite_mem (w : Addr) (v : Byte) : (s.busWrite w v).mem = s.mem.write w v := rfl
@[simp] theorem State.busWrite_disp (w : Addr) (v : Byte) : (s.busWrite w v).disp = s.disp := rfl
@[simp] theorem State.busWrite_dirty (w : Addr) (v : Byte) : (s.busWrite w v).dirty = s.dirty := rfl
@[simp] theorem State.busWrite_ports (w : Addr) (v : Byte) : (s.busWrite w v).ports = s.ports := rfl
@[simp] theorem State.busWrite_iolog (w : Addr) (v : Byte) : (s.busWrite w v).iolog = s.iolog := rfl
@[simp] theorem State.busWrite_inq (w : Addr) (v : Byte) : (s.busWrite w v).inq = s.inq := rfl
@[simp] theorem State.busWrite_events (w : Addr) (v : Byte) : (s.busWrite w v).events = s.events := rfl
@[simp] theorem State.busWrite_answer (w : Addr) (v : Byte) : (s.busWrite w v).answer = s.answer := rfl
@[simp] theorem State.busWrite_trace (w : Addr) (v : Byte) : (s.busWrite w v).trace = s.trace ++ [.memWrite w v] := rfl
@[simp] theorem State.busWrite_flag (w : Addr) (v : Byte) (g : Flag) : (s.busWrite w v).flag g = s.flag g := rfl

/-! ### answerOk -/

@[simp] theorem State.answerOk_pc (e : CycEntry) : (s.answerOk e).pc = s.pc := rfl
@[simp] theorem State.answerOk_sp (e : CycEntry) : (s.answerOk e).sp = s.sp := rfl
@[simp] theorem State.answerOk_a (e : CycEntry) : (s.answerOk e).a = s.a := rfl
@[simp] theorem State.answerOk_x (e : CycEntry) : (s.answerOk e).x = s.x := rfl
@[simp] theorem State.answerOk_y (e : CycEntry) : (s.answerOk e).y = s.y := rfl
@[simp] theorem State.answerOk_p (e : CycEntry) : (s.answerOk e).p = s.p := rfl
@[simp] theorem State.answerOk_run (e : CycEntry) : (s.answerOk e).run = s.run := rfl
@[simp] theorem State.answerOk_mem (e : CycEntry) : (s.answerOk e).mem = s.mem := rfl
@[simp] theorem State.answerOk_disp (e : CycEntry) : (s.answerOk e).disp = s.disp := rfl
@[simp] theorem State.answerOk_dirty (e : CycEntry) : (s.answerOk e).dirty = s.dirty := rfl
@[simp] theorem State.answerOk_ports (e : CycEntry) : (s.answerOk e).ports = s.ports := rfl
@[simp] theorem State.answerOk_iolog (e : CycEntry) : (s.answerOk e).iolog = s.iolog := rfl
@[simp] theorem State.answerOk_inq (e : CycEntry) : (s.answerOk e).inq = s.inq := rfl
@[simp] theorem State.answerOk_events (e : CycEntry) : (s.answerOk e).events = s.events := rfl
@[simp] theorem State.answerOk_answer (e : CycEntry) : (s.answerOk e).answer = some (.ok (Config.cyc e)) := rfl
@[simp] theorem State.answerOk_trace (e : CycEntry) : (s.answerOk e).trace = s.trace := rfl
@[simp] theorem State.answerOk_flag (e : CycEntry) (g : Flag) : (s.answerOk e).flag g = s.flag g := rfl
@[simp] theorem State.answerOk_readByte (e : CycEntry) (k : Addr) : (s.answerOk e).readByte k = s.readByte k := rfl

/-! ### signalHalt -/

@[simp] theorem State.signalHalt_pc : s.signalHalt.pc = s.pc := rfl
@[simp] theorem State.signalHalt_sp : s.signalHalt.sp = s.sp := rfl
@[simp] theorem State.signalHalt_a : s.signalHalt.a = s.a := rfl
@[simp] theorem State.signalHalt_x : s.signalHalt.x = s.x := rfl
@[simp] theorem State.signalHalt_y : s.signalHalt.y = s.y := rfl
@[simp] theorem State.signalHalt_p : s.signalHalt.p = s.p := rfl
@[simp] theorem State.signalHalt_run : s.signalHalt.run = .halted := rfl
@[simp] theorem State.signalHalt_mem : s.signalHalt.mem = s.mem := rfl
@[simp] theorem State.signalHalt_disp : s.signalHalt.disp = s.disp := rfl
@[simp] theorem State.signalHalt_dirty : s.signalHalt.dirty = s.dirty := rfl
@[simp] theorem State.signalHalt_ports : s.signalHalt.ports = s.ports := rfl
@[simp] theorem State.signalHalt_iolog : s.signalHalt.iolog = s.iolog := rfl
@[simp] theorem State.signalHalt_inq : s.signalHalt.inq = s.inq := rfl
@[simp] theorem State.signalHalt_events : s.signalHalt.events = s.events := rfl
@[simp] theorem State.signalHalt_answer : s.signalHalt.answer = some .halted := rfl
@[simp] theorem State.signalHalt_trace : s.signalHalt.trace = s.trace := rfl
@[simp] theorem State.signalHalt_flag (g : Flag) : s.signalHalt.flag g = s.flag g := rfl
@[simp] theorem State.signalHalt_readByte (k : Addr) : s.signalHalt.readByte k = s.readByte k := rfl

/-! ### raiseDecodeFailure -/

@[simp] theorem State.raiseDecodeFailure_pc (b : Byte) : (s.raiseDecodeFailure b).pc = s.pc := rfl
@[simp] theorem State.raiseDecodeFailure_sp (b : Byte) : (s.raiseDecodeFailure b).sp = s.sp := rfl
@[simp] theorem State.raiseDecodeFailure_a (b : Byte) : (s.raiseDecodeFailure b).a = s.a := rfl
@[simp] theorem State.raiseDecodeFailure_x (b : Byte) : (s.raiseDecodeFailure b).x = s.x := rfl
@[simp] theorem State.raiseDecodeFailure_y (b : Byte) : (s.raiseDecodeFailure b).y = s.y := rfl
@[simp] theorem State.raiseDecodeFailure_p (b : Byte) : (s.raiseDecodeFailure b).p = s.p := rfl
@[simp] theorem State.raiseDecodeFailure_run (b : Byte) : (s.raiseDecodeFailure b).run = .faulted b := rfl
@[simp] theorem State.raiseDecodeFailure_mem (b : Byte) : (s.raiseDecodeFailure b).mem = s.mem := rfl
@[simp] theorem State.raiseDecodeFailure_disp (b : Byte) : (s.raiseDecodeFailure b).disp = s.disp := rfl
@[simp] theorem State.raiseDecodeFailure_dirty (b : Byte) : (s.raiseDecodeFailure b).dirty = s.dirty := rfl
@[simp] theorem State.raiseDecodeFailure_ports (b : Byte) : (s.raiseDecodeFailure b).ports = s.ports := rfl
@[simp] theorem State.raiseDecodeFailure_iolog (b : Byte) : (s.raiseDecodeFailure b).iolog = s.iolog := rfl
@[simp] theorem State.raiseDecodeFailure_inq (b : Byte) : (s.raiseDecodeFailure b).inq = s.inq := rfl
@[simp] theorem State.raiseDecodeFailure_events (b : Byte) : (s.raiseDecodeFailure b).events = s.events := rfl
@[simp] theorem State.raiseDecodeFailure_answer (b : Byte) : (s.raiseDecodeFailure b).answer = some (.decodeFailure b) := rfl
@[simp] theorem State.raiseDecodeFailure_trace (b : Byte) : (s.raiseDecodeFailure b).trace = s.trace := rfl
@[simp] theorem State.raiseDecodeFailure_flag (b : Byte) (g : Flag) : (s.raiseDecodeFailure b).flag g = s.flag g := rfl
@[simp] theorem State.raiseDecodeFailure_readByte (b : Byte) (k : Addr) : (s.raiseDecodeFailure b).readByte k = s.readByte k := rfl

/-! ### beginStep -/

@[simp] theorem State.beginStep_pc : s.beginStep.pc = s.pc := rfl
@[simp] theorem State.beginStep_sp : s.beginStep.sp = s.sp := rfl
@[simp] theorem State.beginStep_a : s.beginStep.a = s.a := rfl
@[simp] theorem State.beginStep_x : s.beginStep.x = s.x := rfl
@[simp] theorem State.beginStep_y : s.beginStep.y = s.y := rfl
@[simp] theorem State.beginStep_p : s.beginStep.p = s.p := rfl
@[simp] theorem State.beginStep_run : s.beginStep.run = s.run := rfl
@[simp] theorem State.beginStep_mem : s.beginStep.mem = s.mem := rfl
@[simp] theorem State.beginStep_disp : s.beginStep.disp = s.disp := rfl
@[simp] theorem State.beginStep_dirty : s.beginStep.dirty = s.dirty := rfl
@[simp] theorem State.beginStep_ports : s.beginStep.ports = s.ports := rfl
@[simp] theorem State.beginStep_iolog : s.beginStep.iolog = s.iolog := rfl
@[simp] theorem State.beginStep_inq : s.beginStep.inq = s.inq := rfl
@[simp] theorem State.beginStep_events : s.beginStep.events = s.events := rfl
@[simp] theorem State.beginStep_answer : s.beginStep.answer = s.answer := rfl
@[simp] theorem State.beginStep_trace : s.beginStep.trace = [] := rfl
@[simp] theorem State.beginStep_flag (g : Flag) : s.beginStep.flag g = s.flag g := rfl
@[simp] theorem State.beginStep_readByte (k : Addr) : s.beginStep.readByte k = s.readByte k := rfl

/-! ### stepHalted -/

@[simp] theorem State.stepHalted_pc : s.stepHalted.pc = s.pc := rfl
@[simp] theorem State.stepHalted_sp : s.stepHalted.sp = s.sp := rfl
@[simp] theorem State.stepHalted_a : s.stepHalted.a = s.a := rfl
@[simp] theorem State.stepHalted_x : s.stepHalted.x = s.x := rfl
@[simp] theorem State.stepHalted_y : s.stepHalted.y = s.y := rfl
@[simp] theorem State.stepHalted_p : s.stepHalted.p = s.p := rfl
@[simp] theorem State.stepHalted_run : s.stepHalted.run = s.run := rfl
@[simp] theorem State.stepHalted_mem : s.stepHalted.mem = s.mem := rfl
@[simp] theorem State.stepHalted_disp : s.stepHalted.disp = s.disp := rfl
@[simp] theorem State.stepHalted_dirty : s.stepHalted.dirty = s.dirty := rfl
@[simp] theorem State.stepHalted_ports : s.stepHalted.ports = s.ports := rfl
@[simp] theorem State.stepHalted_iolog : s.stepHalted.iolog = s.iolog := rfl
@[simp] theorem State.stepHalted_inq : s.stepHalted.inq = s.inq := rfl
@[simp] theorem State.stepHalted_events : s.stepHalted.events = s.events := rfl
@[simp] theorem State.stepHalted_answer : s.stepHalted.answer = some .halted := rfl
@[simp] theorem State.stepHalted_trace : s.stepHalted.trace = [] := rfl
@[simp] theorem State.stepHalted_flag (g : Flag) : s.stepHalted.flag g = s.flag g := rfl
@[simp] theorem State.stepHalted_readByte (k : Addr) : s.stepHalted.readByte k = s.readByte k := rfl

/-! ### stepFaulted -/

@[simp] theorem State.stepFaulted_pc (b : Byte) : (s.stepFaulted b).pc = s.pc := rfl
@[simp] theorem State.stepFaulted_sp (b : Byte) : (s.stepFaulted b).sp = s.sp := rfl
@[simp] theorem State.stepFaulted_a (b : Byte) : (s.stepFaulted b).a = s.a := rfl
@[simp] theorem State.stepFaulted_x (b : Byte) : (s.stepFaulted b).x = s.x := rfl
@[simp] theorem State.stepFaulted_y (b : Byte) : (s.stepFaulted b).y = s.y := rfl
@[simp] theorem State.stepFaulted_p (b : Byte) : (s.stepFaulted b).p = s.p := rfl
@[simp] theorem State.stepFaulted_run (b : Byte) : (s.stepFaulted b).run = s.run := rfl
@[simp] theorem State.stepFaulted_mem (b : Byte) : (s.stepFaulted b).mem = s.mem := rfl
@[simp] theorem State.stepFaulted_disp (b : Byte) : (s.stepFaulted b).disp = s.disp := rfl
@[simp] theorem State.stepFaulted_dirty (b : Byte) : (s.stepFaulted b).dirty = s.dirty := rfl
@[simp] theorem State.stepFaulted_ports (b : Byte) : (s.stepFaulted b).ports = s.ports := rfl
@[simp] theorem State.stepFaulted_iolog (b : Byte) : (s.stepFaulted b).iolog = s.iolog := rfl
@[simp] theorem State.stepFaulted_inq (b : Byte) : (s.stepFaulted b).inq = s.inq := rfl
@[simp] theorem State.stepFaulted_events (b : Byte) : (s.stepFaulted b).events = s.events := rfl
@[simp] theorem State.stepFaulted_answer (b : Byte) : (s.stepFaulted b).answer = some (.decodeFailure b) := rfl
@[simp] theorem State.stepFaulted_trace (b : Byte) : (s.stepFaulted b).trace = [] := rfl
@[simp] theorem State.stepFaulted_flag (b : Byte) (g : Flag) : (s.stepFaulted b).flag g = s.flag g := rfl
@[simp] theorem State.stepFaulted_readByte (b : Byte) (k : Addr) : (s.stepFaulted b).readByte k = s.readByte k := rfl

/-! ### applyReset -/

@[simp] theorem State.applyReset_pc : s.applyReset.pc = s.readWord resetVector := rfl
@[simp] theorem State.applyReset_sp : s.applyReset.sp = 0xFF#8 := rfl
@[simp] theorem State.applyReset_a : s.applyReset.a = s.a := rfl
@[simp] theorem State.applyReset_x : s.applyReset.x = s.x := rfl
@[simp] theorem State.applyReset_y : s.applyReset.y = s.y := rfl
@[simp] theorem State.applyReset_p : s.applyReset.p = 0x20#8 := rfl
@[simp] theorem State.applyReset_run : s.applyReset.run = .running := rfl
@[simp] theorem State.applyReset_mem : s.applyReset.mem = s.mem := rfl
@[simp] theorem State.applyReset_disp : s.applyReset.disp = s.disp := rfl
@[simp] theorem State.applyReset_dirty : s.applyReset.dirty = s.dirty := rfl
@[simp] theorem State.applyReset_ports : s.applyReset.ports = s.ports := rfl
@[simp] theorem State.applyReset_iolog : s.applyReset.iolog = s.iolog := rfl
@[simp] theorem State.applyReset_inq : s.applyReset.inq = s.inq := rfl
@[simp] theorem State.applyReset_events : s.applyReset.events = s.events := rfl
@[simp] theorem State.applyReset_answer : s.applyReset.answer = s.answer := rfl
@[simp] theorem State.applyReset_trace : s.applyReset.trace = s.trace := rfl
@[simp] theorem State.applyReset_readByte (k : Addr) : s.applyReset.readByte k = s.readByte k := rfl

/-! ### portWrite -/

@[simp] theorem State.portWrite_pc (q v : Byte) : (s.portWrite q v).pc = s.pc := rfl
@[simp] theorem State.portWrite_sp (q v : Byte) : (s.portWrite q v).sp = s.sp := rfl
@[simp] theorem State.portWrite_a (q v : Byte) : (s.portWrite q v).a = s.a := rfl
@[simp] theorem State.portWrite_x (q v : Byte) : (s.portWrite q v).x = s.x := rfl
@[simp] theorem State.portWrite_y (q v : Byte) : (s.portWrite q v).y = s.y := rfl
@[simp] theorem State.portWrite_p (q v : Byte) : (s.portWrite q v).p = s.p := rfl
@[simp] theorem State.portWrite_run (q v : Byte) : (s.portWrite q v).run = s.run := rfl
@[simp] theorem State.portWrite_mem (q v : Byte) : (s.portWrite q v).mem = s.mem := rfl
@[simp] theorem State.portWrite_disp (q v : Byte) : (s.portWrite q v).disp = s.disp := rfl
@[simp] theorem State.portWrite_dirty (q v : Byte) : (s.portWrite q v).dirty = s.dirty := rfl
@[simp] theorem State.portWrite_ports (q v : Byte) : (s.portWrite q v).ports = s.ports.set q v := rfl
@[simp] theorem State.portWrite_iolog (q v : Byte) : (s.portWrite q v).iolog = s.iolog ++ [(q, v)] := rfl
@[simp] theorem State.portWrite_inq (q v : Byte) : (s.portWrite q v).inq = s.inq := rfl
@[simp] theorem State.portWrite_events (q v : Byte) : (s.portWrite q v).events = s.events ++ portEvents q v := rfl
@[simp] theorem State.portWrite_answer (q v : Byte) : (s.portWrite q v).answer = s.answer := rfl
@[simp] theorem State.portWrite_trace (q v : Byte) : (s.portWrite q v).trace = s.trace := rfl
@[simp] theorem State.portWrite_flag (q v : Byte) (g : Flag) : (s.portWrite q v).flag g = s.flag g := rfl
@[simp] theorem State.portWrite_readByte (q v : Byte) (k : Addr) : (s.portWrite q v).readByte k = s.readByte k := rfl

/-! ### enqueueInput -/

@[simp] theorem State.enqueueInput_pc (b : Byte) : (s.enqueueInput b).pc = s.pc := rfl
@[simp] theorem State.enqueueInput_sp (b : Byte) : (s.enqueueInput b).sp = s.sp := rfl
@[simp] theorem State.enqueueInput_a (b : Byte) : (s.enqueueInput b).a = s.a := rfl
@[simp] theorem State.enqueueInput_x (b : Byte) : (s.enqueueInput b).x = s.x := rfl
@[simp] theorem State.enqueueInput_y (b : Byte) : (s.enqueueInput b).y = s.y := rfl
@[simp] theorem State.enqueueInput_p (b : Byte) : (s.enqueueInput b).p = s.p := rfl
@[simp] theorem State.enqueueInput_run (b : Byte) : (s.enqueueInput b).run = s.run := rfl
@[simp] theorem State.enqueueInput_mem (b : Byte) : (s.enqueueInput b).mem = s.mem := rfl
@[simp] theorem State.enqueueInput_disp (b : Byte) : (s.enqueueInput b).disp = s.disp := rfl
@[simp] theorem State.enqueueInput_dirty (b : Byte) : (s.enqueueInput b).dirty = s.dirty := rfl
@[simp] theorem State.enqueueInput_ports (b : Byte) : (s.enqueueInput b).ports = s.ports := rfl
@[simp] theorem State.enqueueInput_iolog (b : Byte) : (s.enqueueInput b).iolog = s.iolog := rfl
@[simp] theorem State.enqueueInput_inq (b : Byte) : (s.enqueueInput b).inq = s.inq ++ [b] := rfl
@[simp] theorem State.enqueueInput_events (b : Byte) : (s.enqueueInput b).events = s.events := rfl
@[simp] theorem State.enqueueInput_answer (b : Byte) : (s.enqueueInput b).answer = s.answer := rfl
@[simp] theorem State.enqueueInput_trace (b : Byte) : (s.enqueueInput b).trace = s.trace := rfl
@[simp] theorem State.enqueueInput_flag (b : Byte) (g : Flag) : (s.enqueueInput b).flag g = s.flag g := rfl
@[simp] theorem State.enqueueInput_readByte (b : Byte) (k : Addr) : (s.enqueueInput b).readByte k = s.readByte k := rfl

/-! ### Reading -/

@[simp] theorem State.busRead_fst (k : Addr) : (s.busRead k).1 = s.readByte k := rfl
@[simp] theorem State.busRead_snd (k : Addr) : (s.busRead k).2 = s.noteAccess (.memRead k (s.readByte k)) := rfl

end Sys2Proof.Machine
end

