-- ==== Sys2Proof/Laws/Devices.lean ====
section
/-!
SUPPORT. The devices and the dispatcher: what each operation can do, said once (spec 60_exceptions.md R180, R185, R187;
20_memory.md R58).
-/

namespace Sys2Proof.Machine

/-- A display cell reads as written. -/
@[simp] theorem DispBuffer.read_write_same (d : DispBuffer) (off : Nat) (v : Byte) : (d.write off v).read off = v :=
  cellRead_write_same _ _ _ _

/-- Another display cell reads as before. -/
theorem DispBuffer.read_write_other (d : DispBuffer) {off k : Nat} (v : Byte) (h : k ≠ off) :
    (d.write off v).read k = d.read k :=
  cellRead_write_other _ _ _ h

/-- Writing a cell in range keeps the display's canonical form. -/
theorem DispBuffer.wf_write {d : DispBuffer} {off : Nat} (v : Byte) (hoff : off < Config.dispCells)
    (h : d.wf = true) : (d.write off v).wf = true := by
  simp only [DispBuffer.wf, Bool.and_eq_true] at *
  exact ⟨cellsRising_write _ _ _ h.1, cellsBelow_write _ _ hoff h.2.1, cellsListed_write _ _ _ h.2.2⟩

/-- A port reads as set. -/
@[simp] theorem PortMap.lookup_set_same (m : PortMap) (p v : Byte) : (m.set p v).lookup p = some v :=
  cellFind_put_same _ _ _

/-- Another port reads as before. -/
theorem PortMap.lookup_set_other (m : PortMap) {p q : Byte} (v : Byte) (h : q ≠ p) :
    (m.set p v).lookup q = m.lookup q :=
  cellFind_put_other _ _ fun e => h (BitVec.eq_of_toNat_eq e)

/-- Setting a port keeps the port map's canonical form. -/
theorem PortMap.wf_set {m : PortMap} (p v : Byte) (h : m.wf = true) : (m.set p v).wf = true := by
  simp only [PortMap.wf, Bool.and_eq_true] at *
  exact ⟨cellsRising_put _ _ h.1, cellsBelow_put _ p.isLt h.2⟩

variable (s : State)

/-- A display write does one of two things (60_exceptions.md R180). -/
theorem State.dispWrite_cases (off : Nat) (v : Byte) :
    (off < Config.dispCells ∧ s.dispWrite off v = { s with disp := s.disp.write off v, dirty := true }) ∨
    (¬off < Config.dispCells ∧ s.dispWrite off v = s) := by
  unfold State.dispWrite
  split
  · exact .inl ⟨‹_›, rfl⟩
  · exact .inr ⟨‹_›, rfl⟩

/-- A display write touches the display alone. -/
theorem State.dispWrite_eq (off : Nat) (v : Byte) :
    s.dispWrite off v = { s with disp := (s.dispWrite off v).disp, dirty := (s.dispWrite off v).dirty } := by
  rcases s.dispWrite_cases off v with ⟨_, h⟩ | ⟨_, h⟩ <;> rw [h]

/-- The address decoder by range (20_memory.md R57, R58). -/
theorem storeTarget_cases (addr : Addr) :
    (0x4000 ≤ addr.toNat ∧ addr.toNat < 0x5000 ∧
      storeTarget addr = .display (BitVec.ofNat 12 (addr.toNat - 0x4000))) ∨
    (0x5000 ≤ addr.toNat ∧ addr.toNat < 0x6000 ∧
      storeTarget addr = .port (BitVec.ofNat 8 (addr.toNat - 0x5000))) ∨
    ((addr.toNat < 0x4000 ∨ 0x6000 ≤ addr.toNat) ∧ storeTarget addr = .rawMemory) := by
  unfold storeTarget
  split
  · rename_i h
    exact .inl ⟨h.1, h.2, rfl⟩
  · split
    · rename_i h
      exact .inr (.inl ⟨h.1, h.2, rfl⟩)
    · exact .inr (.inr ⟨by omega, rfl⟩)

/-- A dispatched store does one of three things (20_memory.md R58). -/
theorem State.storeDispatch_cases (addr : Addr) (v : Byte) :
    (0x4000 ≤ addr.toNat ∧ addr.toNat < 0x5000 ∧
      s.storeDispatch addr v = (s.dispWrite (addr.toNat - 0x4000) v).noteAccess
        (.dispWrite (BitVec.ofNat 12 (addr.toNat - 0x4000)) v)) ∨
    (0x5000 ≤ addr.toNat ∧ addr.toNat < 0x6000 ∧
      s.storeDispatch addr v = (s.portWrite (BitVec.ofNat 8 (addr.toNat - 0x5000)) v).noteAccess
        (.portWrite (BitVec.ofNat 8 (addr.toNat - 0x5000)) v)) ∨
    ((addr.toNat < 0x4000 ∨ 0x6000 ≤ addr.toNat) ∧ s.storeDispatch addr v = s.busWrite addr v) := by
  rcases storeTarget_cases addr with ⟨hl, hh, ht⟩ | ⟨hl, hh, ht⟩ | ⟨h, ht⟩
  · refine .inl ⟨hl, hh, ?_⟩
    have : (BitVec.ofNat 12 (addr.toNat - 0x4000)).toNat = addr.toNat - 0x4000 := by
      simp only [BitVec.toNat_ofNat]
      omega
    simp only [State.storeDispatch, ht, this]
  · exact .inr (.inl ⟨hl, hh, by simp only [State.storeDispatch, ht]⟩)
  · exact .inr (.inr ⟨h, by simp only [State.storeDispatch, ht]⟩)

/-- A port read takes from the queue first (60_exceptions.md R187). -/
theorem State.readPort_cases (p : Byte) :
    (∃ b rest, s.inq = b :: rest ∧ s.readPort p = (b, { s with inq := rest })) ∨
    (s.inq = [] ∧ s.readPort p = ((s.ports.lookup p).getD 0x00#8, s)) := by
  unfold State.readPort
  cases h : s.inq with
  | nil => exact .inr ⟨rfl, rfl⟩
  | cons b rest => exact .inl ⟨b, rest, rfl, rfl⟩

end Sys2Proof.Machine
end

