-- ==== Sys2Proof/Laws/Fetch.lean ====
section
/-!
SUPPORT. Fetching: what fetching so many bytes does, and the two things the fetch of an instruction can do (spec
42_control.md R151, R152).
-/

namespace Sys2Proof.Machine

variable (s : State)

@[simp] theorem State.fetchByte_fst : s.fetchByte.1 = s.readByte s.pc := rfl

theorem State.fetchByte_snd :
    s.fetchByte.2 = { s with pc := s.pc + 1, trace := s.trace ++ [.memRead s.pc (s.readByte s.pc)] } := rfl

@[simp] theorem State.codeByte_zero : s.codeByte 0 = s.readByte s.pc := by simp [State.codeByte]

/-- An address one byte on, then `k` bytes on. -/
theorem addr_one_add (a : Addr) (k : Nat) : a + 1#16 + BitVec.ofNat 16 k = a + BitVec.ofNat 16 (k + 1) := by
  rw [BitVec.add_assoc, Nat.add_comm k 1, BitVec.ofNat_add]

/-- The bytes after PC, seen from one byte on. -/
theorem State.codeByte_fetchByte : s.fetchByte.2.codeByte = fun k => s.codeByte (k + 1) := by
  funext k
  show s.readByte (s.pc + 1#16 + BitVec.ofNat 16 k) = _
  rw [addr_one_add]
  rfl

/-- Fetching `n` bytes reads them in address order, moves PC past them, notes the reads, and does nothing else. -/
theorem State.fetchBytes_eq (n : Nat) :
    State.fetchBytes n s =
      ((List.range n).map s.codeByte,
       { s with
         pc := s.pc + BitVec.ofNat 16 n
         trace := s.trace ++ (List.range n).map fun k => .memRead (s.pc + BitVec.ofNat 16 k) (s.codeByte k) }) := by
  induction n generalizing s with
  | zero => simp [State.fetchBytes]
  | succ n ih =>
    simp only [State.fetchBytes, ih s.fetchByte.2, State.codeByte_fetchByte, State.fetchByte_fst,
      List.range_succ_eq_map, List.map_cons, List.map_map, Function.comp_def, State.codeByte_zero]
    refine Prod.ext rfl ?_
    simp only [State.fetchByte_snd, List.append_assoc, List.singleton_append, Nat.succ_eq_add_one, BitVec.add_zero,
      BitVec.ofNat_eq_ofNat, addr_one_add]

/-- Fetching from the start of a step. -/
theorem State.fetchBytes_beginStep (n : Nat) :
    State.fetchBytes n s.beginStep = ((List.range n).map s.codeByte, s.fetched n) := by
  rw [State.fetchBytes_eq]
  rfl

/-- The two things the fetch of an instruction from the start of a step can do. -/
theorem State.fetchInstr_cases :
    (∃ t, decodeOpcode (s.codeByte 0) = .tag t ∧
      s.beginStep.fetchInstr =
        .instr (assemble t ((List.range (operandBytes t)).map fun k => s.codeByte (k + 1)))
          (s.fetched (operandBytes t + 1))) ∨
    (decodeOpcode (s.codeByte 0) = .unknownOpcode (s.codeByte 0) ∧
      s.beginStep.fetchInstr = .unknownOpcode (s.codeByte 0) (s.fetched 1)) := by
  have hop : s.beginStep.fetchByte.1 = s.codeByte 0 := by simp
  have hone : s.beginStep.fetchByte.2 = s.fetched 1 := by
    simp [State.fetched, State.fetchByte_snd, State.beginStep, List.range_succ]
    rfl
  rcases decodeOpcode_cases (s.codeByte 0) with ⟨t, ht, -⟩ | ⟨ht, -⟩
  · refine .inl ⟨t, ht, ?_⟩
    have hall := s.fetchBytes_beginStep (operandBytes t + 1)
    rw [State.fetchBytes] at hall
    have hsnd : (State.fetchBytes (operandBytes t) s.beginStep.fetchByte.2).2 = s.fetched (operandBytes t + 1) :=
      congrArg Prod.snd hall
    have hfst : (State.fetchBytes (operandBytes t) s.beginStep.fetchByte.2).1 =
        (List.range (operandBytes t)).map fun k => s.codeByte (k + 1) := by
      have := congrArg Prod.fst hall
      simp only [List.range_succ_eq_map, List.map_cons, List.map_map, List.cons.injEq] at this
      simpa [Function.comp_def] using this.2
    simp only [State.fetchInstr, hop, ht, hsnd, hfst]
  · refine .inr ⟨ht, ?_⟩
    simp only [State.fetchInstr, hop, ht, hone]

end Sys2Proof.Machine
end

