-- ==== Sys2Proof/Laws/Flags.lean ====
section
/-!
SUPPORT. The status register: a flag write sets that flag and no other bit (spec 00_scope.md R13), and what the flag unit
computes (41_arithmetic.md R120).
-/

namespace Sys2Proof.Machine

/-- A flag reads as written. -/
@[simp] theorem readFlag_writeFlag_same (p : Byte) (f : Flag) (on : Bool) : readFlag (writeFlag p f on) f = on := by
  cases f <;> cases on <;> simp [readFlag, writeFlag, flagBit, flagMask]

/-- Another flag reads as before. -/
theorem readFlag_writeFlag_other (p : Byte) {f g : Flag} (on : Bool) (h : g ≠ f) :
    readFlag (writeFlag p f on) g = readFlag p g := by
  cases f <;> cases g <;> first | exact absurd rfl h | (cases on <;> simp [readFlag, writeFlag, flagBit, flagMask])

/-- A flag write leaves the reserved bit (10_state.md R33). -/
@[simp] theorem getElem_five_writeFlag (p : Byte) (f : Flag) (on : Bool) : (writeFlag p f on)[5] = p[5] := by
  cases f <;> cases on <;> simp [writeFlag, flagMask]

/-- The reserved bit after a flag write, as `getLsbD` reads it. -/
theorem getLsbD_five_writeFlag (p : Byte) (f : Flag) (on : Bool) :
    (writeFlag p f on).getLsbD 5 = p.getLsbD 5 :=
  getElem_five_writeFlag p f on

/-- The mask of a flag is the bit it names (10_state.md R27). -/
theorem flagMask_eq (f : Flag) : flagMask f = 1#8 <<< flagBit f := by cases f <;> rfl

/-- Two status bytes with the same flags and the same reserved bit are equal. -/
theorem status_ext {p q : Byte} (hf : ∀ f, readFlag p f = readFlag q f) (h5 : p.getLsbD 5 = q.getLsbD 5) : p = q := by
  apply BitVec.eq_of_getLsbD_eq
  intro k hk
  have hc := hf .c
  have hz := hf .z
  have hi := hf .i
  have hd := hf .d
  have hb := hf .b
  have hv := hf .v
  have hn := hf .n
  simp only [readFlag, flagBit] at hc hz hi hd hb hv hn
  match k, hk with
  | 0, _ => exact hc
  | 1, _ => exact hz
  | 2, _ => exact hi
  | 3, _ => exact hd
  | 4, _ => exact hb
  | 5, _ => exact h5
  | 6, _ => exact hv
  | 7, _ => exact hn

variable (s : State)

/-- Reading the flag just written. -/
@[simp] theorem State.flag_setFlag_same (f : Flag) (on : Bool) : (s.setFlag f on).flag f = on :=
  readFlag_writeFlag_same s.p f on

/-- Reading another flag. -/
theorem State.flag_setFlag_other {f g : Flag} (on : Bool) (h : g ≠ f) : (s.setFlag f on).flag g = s.flag g :=
  readFlag_writeFlag_other s.p on h

/-- Every flag after one is written. -/
theorem State.flag_setFlag (f g : Flag) (on : Bool) :
    (s.setFlag f on).flag g = if g = f then on else s.flag g := by
  by_cases h : g = f
  · subst h; simp
  · simp [h, s.flag_setFlag_other on h]

/-- Every flag after `SetZN` (41_arithmetic.md R120). -/
theorem State.flag_setZN (v : Byte) (g : Flag) :
    (s.setZN v).flag g = if g = .n then negativeFlag v else if g = .z then zeroFlag v else s.flag g := by
  rw [State.setZN, State.flag_setFlag, State.flag_setFlag]

/-- The carry and overflow flags after `SetZN` are as before. -/
@[simp] theorem State.flag_setZN_c (v : Byte) : (s.setZN v).flag .c = s.flag .c := by simp [State.flag_setZN]
@[simp] theorem State.flag_setZN_v (v : Byte) : (s.setZN v).flag .v = s.flag .v := by simp [State.flag_setZN]
@[simp] theorem State.flag_setZN_z (v : Byte) : (s.setZN v).flag .z = zeroFlag v := by simp [State.flag_setZN]
@[simp] theorem State.flag_setZN_n (v : Byte) : (s.setZN v).flag .n = negativeFlag v := by simp [State.flag_setZN]

/-- The zero flag of a byte says that its number is 0 (41_arithmetic.md R120). -/
theorem zeroFlag_iff (v : Byte) : zeroFlag v = true ↔ v.toNat = 0 := by
  simp [zeroFlag, BitVec.toNat_eq]

/-- ADC's result as a natural number (41_arithmetic.md R125). -/
theorem adcResult_toNat (a m : Byte) (c : Bool) : (adcResult a m c).toNat = adcSum a m c % 256 := by
  simp [adcResult]

/-- SBC's result as an integer (41_arithmetic.md R130). -/
theorem sbcResult_toNat (a m : Byte) (c : Bool) : ((sbcResult a m c).toNat : Int) = sbcDiff a m c % 256 := by
  simp only [sbcResult, BitVec.toNat_ofInt]
  omega

/-- CMP's result as an integer (41_arithmetic.md R139). -/
theorem cmpResult_toNat (a m : Byte) :
    ((cmpResult a m).toNat : Int) = ((a.toNat : Int) - (m.toNat : Int)) % 256 := by
  simp only [cmpResult, BitVec.toNat_ofInt]
  omega

/-- INC's result as a natural number (41_arithmetic.md R135). -/
theorem incResult_toNat (v : Byte) : (incResult v).toNat = (v.toNat + 1) % 256 := by
  simp [incResult]

/-- Bit 7 of a byte says that it is at least 128. -/
theorem getLsbD_seven (v : Byte) : v.getLsbD 7 = decide (128 ≤ v.toNat) := by
  have : v.getLsbD 7 = v.msb := by simp [BitVec.msb_eq_getLsbD_last]
  rw [this, BitVec.msb_eq_decide]

/-- The negative flag of a byte says that its number is at least 128 (41_arithmetic.md R120). -/
theorem negativeFlag_iff (v : Byte) : negativeFlag v = true ↔ 128 ≤ v.toNat := by
  rw [negativeFlag, getLsbD_seven, decide_eq_true_eq]

/-- CMP's difference is the difference of bytes (41_arithmetic.md R139). -/
theorem cmpResult_eq_sub (a m : Byte) : cmpResult a m = a - m := by
  apply BitVec.eq_of_toNat_eq
  have := cmpResult_toNat a m
  rw [BitVec.toNat_sub]
  omega

end Sys2Proof.Machine
end

