-- ==== Sys2Proof/Laws/Memory.lean ====
section
/-!
SUPPORT. Raw memory: reading after writing, bytes and words (spec 20_memory.md R47 to R53), and the canonical form.
-/

namespace Sys2Proof.Machine

/-- A byte reads as written (20_memory.md R47, R48). -/
@[simp] theorem Memory.read_write_same (m : Memory) (w : Addr) (v : Byte) : (m.write w v).read w = v :=
  cellRead_write_same _ _ _ _

/-- Another byte reads as before (20_memory.md R48). -/
theorem Memory.read_write_other (m : Memory) {w a : Addr} (v : Byte) (h : a ≠ w) :
    (m.write w v).read a = m.read a :=
  cellRead_write_other _ _ _ fun e => h (BitVec.eq_of_toNat_eq e)

/-- Writing a byte keeps the canonical form. -/
theorem Memory.wf_write {m : Memory} (w : Addr) (v : Byte) (h : m.wf = true) : (m.write w v).wf = true := by
  simp only [Memory.wf, Bool.and_eq_true] at *
  exact ⟨cellsRising_write _ _ _ h.1, cellsBelow_write _ _ w.isLt h.2.1, cellsListed_write _ _ _ h.2.2⟩

variable (s : State)

@[simp] theorem State.readByte_writeByte_same (w : Addr) (v : Byte) : (s.writeByte w v).readByte w = v :=
  Memory.read_write_same _ _ _

theorem State.readByte_writeByte_other {w a : Addr} (v : Byte) (h : a ≠ w) :
    (s.writeByte w v).readByte a = s.readByte a :=
  Memory.read_write_other _ v h

/-- Every byte after one is written. -/
theorem State.readByte_writeByte (w a : Addr) (v : Byte) :
    (s.writeByte w v).readByte a = if a = w then v else s.readByte a := by
  by_cases h : a = w
  · subst h; simp
  · simp [h, s.readByte_writeByte_other v h]

/-- Every byte after the core writes one. -/
theorem State.readByte_busWrite (w a : Addr) (v : Byte) :
    (s.busWrite w v).readByte a = if a = w then v else s.readByte a :=
  s.readByte_writeByte w a v

/-- The two bytes of a word lie at different addresses, at the top of the space too (20_memory.md R51). -/
theorem addr_succ_ne (a : Addr) : a + 1 ≠ a := by
  intro h
  bv_omega

/-- A word is its low and its high byte (20_memory.md R49). -/
@[simp] theorem wordOf_low_high (w : Addr) : wordOf (lowByte w) (highByte w) = w := by
  apply BitVec.eq_of_getLsbD_eq
  intro k hk
  simp only [wordOf, lowByte, highByte, BitVec.getLsbD_append, BitVec.getLsbD_extractLsb']
  by_cases h : k < 8
  · simp [h]
  · have h8 : k - 8 < 8 := by omega
    have hk' : 8 + (k - 8) = k := by omega
    simp [h, h8, hk']

@[simp] theorem lowByte_wordOf (lo hi : Byte) : lowByte (wordOf lo hi) = lo := by
  apply BitVec.eq_of_getLsbD_eq
  intro k hk
  simp only [wordOf, lowByte, BitVec.getLsbD_extractLsb', BitVec.getLsbD_append]
  simp [hk]

@[simp] theorem highByte_wordOf (lo hi : Byte) : highByte (wordOf lo hi) = hi := by
  apply BitVec.eq_of_getLsbD_eq
  intro k hk
  simp only [wordOf, highByte, BitVec.getLsbD_extractLsb', BitVec.getLsbD_append]
  simp [hk]

/-- A word as a natural number (20_memory.md R51). -/
theorem toNat_wordOf (lo hi : Byte) : (wordOf lo hi).toNat = lo.toNat + 256 * hi.toNat := by
  have h : (wordOf lo hi).toNat = hi.toNat <<< 8 ||| lo.toNat := BitVec.toNat_append hi lo
  rw [h, ← Nat.shiftLeft_add_eq_or_of_lt lo.isLt, Nat.shiftLeft_eq]
  omega

/-! ### Storing a list of bytes -/

/-- Storing bytes changes raw memory alone. -/
theorem State.storeBytes_eq (a : Addr) (bs : List Byte) :
    s.storeBytes a bs = { s with mem := (s.storeBytes a bs).mem } := by
  induction bs generalizing s a with
  | nil => rfl
  | cons b rest ih =>
    rw [State.storeBytes, ih (s.writeByte a b) (a + 1)]
    rfl

/-- Storing bytes keeps raw memory's canonical form. -/
theorem State.storeBytes_wf (a : Addr) (bs : List Byte) (h : s.mem.wf = true) : (s.storeBytes a bs).mem.wf = true := by
  induction bs generalizing s a with
  | nil => exact h
  | cons b rest ih => exact ih _ _ (Memory.wf_write a b h)

/-- Right after reset raw memory is in canonical form. -/
theorem State.reset_mem_wf : State.reset.mem.wf = true := rfl

/-- A byte write keeps raw memory's canonical form. -/
theorem State.writeByte_mem_wf (w : Addr) (v : Byte) (h : s.mem.wf = true) : (s.writeByte w v).mem.wf = true :=
  Memory.wf_write w v h

/-- A word write keeps raw memory's canonical form. -/
theorem State.writeWord_mem_wf (a v : Addr) (h : s.mem.wf = true) : (s.writeWord a v).mem.wf = true :=
  Memory.wf_write _ _ (Memory.wf_write _ _ h)

/-- Loading a program does one of two things (20_memory.md R56). -/
theorem State.loadProgram_cases (bytes : List Byte) (start : Addr) :
    (start.toNat + bytes.length ≤ 65536 ∧ s.loadProgram bytes start = s.storeBytes start bytes) ∨
    (65536 < start.toNat + bytes.length ∧ s.loadProgram bytes start = s) := by
  unfold State.loadProgram
  split
  · exact .inl ⟨‹_›, rfl⟩
  · exact .inr ⟨by omega, rfl⟩

/-- Loading a program keeps raw memory's canonical form. -/
theorem State.loadProgram_mem_wf (bytes : List Byte) (start : Addr) (h : s.mem.wf = true) :
    (s.loadProgram bytes start).mem.wf = true := by
  rcases s.loadProgram_cases bytes start with ⟨_, e⟩ | ⟨_, e⟩ <;> rw [e]
  · exact s.storeBytes_wf start bytes h
  · exact h

/-- A byte whose address no stored byte has reads as before. -/
theorem State.readByte_storeBytes_other (a k : Addr) (bs : List Byte)
    (h : ∀ j, j < bs.length → k ≠ a + BitVec.ofNat 16 j) : (s.storeBytes a bs).readByte k = s.readByte k := by
  induction bs generalizing s a with
  | nil => rfl
  | cons b rest ih =>
    rw [State.storeBytes, ih (s.writeByte a b) (a + 1), s.readByte_writeByte_other b]
    · have := h 0 (by simp)
      simpa using this
    · intro j hj
      have := h (j + 1) (by simpa using hj)
      rwa [BitVec.add_assoc, show (1 : Addr) + BitVec.ofNat 16 j = BitVec.ofNat 16 (j + 1) by
        rw [Nat.add_comm j 1, BitVec.ofNat_add]
        rfl]

end Sys2Proof.Machine
end

