-- ==== Sys2Proof/Laws/PerInstr.lean ====
section
/-!
SUPPORT. A family of laws, one lemma per instruction: the shape of its encoding (spec 30_encoding.md R81, R82, R90).
-/

namespace Sys2Proof.Laws.EncodeShape

/-- An instruction is well formed, whatever its operands (R90), its encoding begins with its opcode and has the length the
opcode fixes (R82), and those bytes are the bytes of one instruction. -/
def Statement (i : Instr) : Prop :=
  i.wellFormed = true ∧ (encode i).head? = some (opcodeOf i.tag) ∧ (encode i).length = instrLength i ∧
  wellFormedBytes (encode i) = true

theorem ldaImm (imm : Byte) : Statement (.ldaImm imm) := ⟨rfl, rfl, rfl, rfl⟩
theorem ldaZp (zp : Byte) : Statement (.ldaZp zp) := ⟨rfl, rfl, rfl, rfl⟩
theorem staZp (zp : Byte) : Statement (.staZp zp) := ⟨rfl, rfl, rfl, rfl⟩
theorem staAbs (addr : Addr) : Statement (.staAbs addr) := ⟨rfl, rfl, rfl, rfl⟩
theorem adcImm (imm : Byte) : Statement (.adcImm imm) := ⟨rfl, rfl, rfl, rfl⟩
theorem sbcImm (imm : Byte) : Statement (.sbcImm imm) := ⟨rfl, rfl, rfl, rfl⟩
theorem incZp (zp : Byte) : Statement (.incZp zp) := ⟨rfl, rfl, rfl, rfl⟩
theorem cmpImm (imm : Byte) : Statement (.cmpImm imm) := ⟨rfl, rfl, rfl, rfl⟩
theorem bne (rel : Byte) : Statement (.bne rel) := ⟨rfl, rfl, rfl, rfl⟩
theorem sec : Statement .sec := ⟨rfl, rfl, rfl, rfl⟩
theorem hlt : Statement .hlt := ⟨rfl, rfl, rfl, rfl⟩

end Sys2Proof.Laws.EncodeShape
end

