-- ==== Sys2Proof/Laws/Step.lean ====
section
/-!
SUPPORT. What a step can do, said once, and what any instruction leaves alone.
-/

namespace Sys2Proof.Machine

/-! ### The meanings as equations -/

variable (s : State)

theorem exec_ldaImm (imm : Byte) : exec (.ldaImm imm) s = .next (((s.setA imm).setZN imm).answerOk .ldaImm) := rfl

theorem exec_ldaZp (zp : Byte) :
    exec (.ldaZp zp) s =
      .next ((((s.noteAccess (.memRead (zpAddr zp) (s.readByte (zpAddr zp)))).setA (s.readByte (zpAddr zp))).setZN
        (s.readByte (zpAddr zp))).answerOk .ldaZp) := rfl

theorem exec_staZp (zp : Byte) : exec (.staZp zp) s = .next ((s.busWrite (zpAddr zp) s.a).answerOk .staZp) := rfl

theorem exec_staAbs (addr : Addr) : exec (.staAbs addr) s = .next ((s.storeDispatch addr s.a).answerOk .staAbs) := rfl

theorem exec_adcImm (imm : Byte) :
    exec (.adcImm imm) s =
      .next (((((s.setFlag .c (adcCarry s.a imm (s.flag .c))).setFlag .v (adcOverflow s.a imm (s.flag .c))).setA
        (adcResult s.a imm (s.flag .c))).setZN (adcResult s.a imm (s.flag .c))).answerOk .adcImm) := rfl

theorem exec_sbcImm (imm : Byte) :
    exec (.sbcImm imm) s =
      .next (((((s.setFlag .c (sbcCarry s.a imm (s.flag .c))).setFlag .v (sbcOverflow s.a imm (s.flag .c))).setA
        (sbcResult s.a imm (s.flag .c))).setZN (sbcResult s.a imm (s.flag .c))).answerOk .sbcImm) := rfl

theorem exec_incZp (zp : Byte) :
    exec (.incZp zp) s =
      .next ((((s.noteAccess (.memRead (zpAddr zp) (s.readByte (zpAddr zp)))).busWrite (zpAddr zp)
        (incResult (s.readByte (zpAddr zp)))).setZN (incResult (s.readByte (zpAddr zp)))).answerOk .incZp) := rfl

theorem exec_cmpImm (imm : Byte) :
    exec (.cmpImm imm) s =
      .next (((s.setZN (cmpResult s.a imm)).setFlag .c (cmpCarry s.a imm)).answerOk .cmpImm) := rfl

theorem exec_bne_taken (rel : Byte) (h : s.flag .z = false) :
    exec (.bne rel) s = .next ((s.setPc (branchTarget s.pc rel)).answerOk .bneTaken) := by
  simp [exec, execBne, h]

theorem exec_bne_not_taken (rel : Byte) (h : s.flag .z = true) :
    exec (.bne rel) s = .next (s.answerOk .bneNotTaken) := by
  simp [exec, execBne, h]

theorem exec_sec : exec .sec s = .next ((s.setFlag .c true).answerOk .sec) := rfl

theorem exec_hlt : exec .hlt s = .next s.signalHalt := rfl

/-- Every instruction answers a next state: no meaning faults or refuses (60_exceptions.md R172, R173). -/
theorem exec_next (i : Instr) : ∃ t, exec i s = .next t := by
  cases i with
  | bne rel =>
    cases hz : s.flag .z with
    | true => exact ⟨_, exec_bne_not_taken s rel hz⟩
    | false => exact ⟨_, exec_bne_taken s rel hz⟩
  | _ => exact ⟨_, rfl⟩

/-! ### The terms of the claims -/

/-- Which flags stand depends on the status byte alone. -/
theorem sameFlagsBut_of_p {l : List Flag} {t u : State} (hp : u.p = t.p) (h : SameFlagsBut l s t) :
    SameFlagsBut l s u := by
  simpa only [SameFlagsBut, State.flag, hp] using h

theorem sameFlagsBut_refl (l : List Flag) : SameFlagsBut l s s := ⟨fun _ _ => rfl, rfl⟩

/-- Writing a listed flag keeps the others. -/
theorem sameFlagsBut_setFlag {l : List Flag} {t : State} {f : Flag} (hf : f ∈ l) (on : Bool) (h : SameFlagsBut l s t) :
    SameFlagsBut l s (t.setFlag f on) := by
  refine ⟨fun g hg => ?_, (getLsbD_five_writeFlag t.p f on).trans h.2⟩
  have hgf : g ≠ f := fun e => hg (e ▸ hf)
  rw [t.flag_setFlag_other on hgf, h.1 g hg]

/-- `SetZN` keeps the flags other than Z and N. -/
theorem sameFlagsBut_setZN {l : List Flag} {t : State} (hz : Flag.z ∈ l) (hn : Flag.n ∈ l) (v : Byte)
    (h : SameFlagsBut l s t) : SameFlagsBut l s (t.setZN v) :=
  sameFlagsBut_setFlag s hn _ (sameFlagsBut_setFlag s hz _ h)

/-- The zero-page address is the operand's number (spec 30_encoding.md R87). -/
theorem zpAddr_eq (zp : Byte) : zpAddr zp = BitVec.ofNat 16 zp.toNat := by
  apply BitVec.eq_of_toNat_eq
  simp [zpAddr, zext16]

/-! ### The step -/

/-- All that a step of a running machine can do. -/
theorem step_running (hrun : s.run = .running) :
    (∃ t, decodeOpcode (s.codeByte 0) = .tag t ∧
      step s = exec (assemble t ((List.range (operandBytes t)).map fun k => s.codeByte (k + 1)))
        (s.fetched (operandBytes t + 1))) ∨
    (decodeOpcode (s.codeByte 0) = .unknownOpcode (s.codeByte 0) ∧
      step s = .next ((s.fetched 1).raiseDecodeFailure (s.codeByte 0))) := by
  rcases s.fetchInstr_cases with ⟨t, ht, h⟩ | ⟨ht, h⟩
  · exact .inl ⟨t, ht, by simp only [step, hrun, h]⟩
  · exact .inr ⟨ht, by simp only [step, hrun, h]⟩

theorem step_halted (h : s.run = .halted) : step s = .next s.stepHalted := by simp only [step, h]

theorem step_faulted {b : Byte} (h : s.run = .faulted b) : step s = .next (s.stepFaulted b) := by simp only [step, h]

theorem step_notReset (h : s.run = .notReset) : step s = .refused .notReset := by simp only [step, h]

/-! ### The fetched state -/

@[simp] theorem State.fetched_pc (n : Nat) : (s.fetched n).pc = s.pc + BitVec.ofNat 16 n := rfl
@[simp] theorem State.fetched_sp (n : Nat) : (s.fetched n).sp = s.sp := rfl
@[simp] theorem State.fetched_a (n : Nat) : (s.fetched n).a = s.a := rfl
@[simp] theorem State.fetched_x (n : Nat) : (s.fetched n).x = s.x := rfl
@[simp] theorem State.fetched_y (n : Nat) : (s.fetched n).y = s.y := rfl
@[simp] theorem State.fetched_p (n : Nat) : (s.fetched n).p = s.p := rfl
@[simp] theorem State.fetched_flag (n : Nat) (f : Flag) : (s.fetched n).flag f = s.flag f := rfl
@[simp] theorem State.fetched_run (n : Nat) : (s.fetched n).run = s.run := rfl
@[simp] theorem State.fetched_mem (n : Nat) : (s.fetched n).mem = s.mem := rfl
@[simp] theorem State.fetched_readByte (n : Nat) (k : Addr) : (s.fetched n).readByte k = s.readByte k := rfl
@[simp] theorem State.fetched_disp (n : Nat) : (s.fetched n).disp = s.disp := rfl
@[simp] theorem State.fetched_dirty (n : Nat) : (s.fetched n).dirty = s.dirty := rfl
@[simp] theorem State.fetched_ports (n : Nat) : (s.fetched n).ports = s.ports := rfl
@[simp] theorem State.fetched_iolog (n : Nat) : (s.fetched n).iolog = s.iolog := rfl
@[simp] theorem State.fetched_inq (n : Nat) : (s.fetched n).inq = s.inq := rfl
@[simp] theorem State.fetched_events (n : Nat) : (s.fetched n).events = s.events := rfl
@[simp] theorem State.fetched_answer (n : Nat) : (s.fetched n).answer = s.answer := rfl

/-! ### What any instruction leaves alone -/

/-- The registers and the queue that no instruction touches, after a dispatched store. -/
theorem State.storeDispatch_rest (addr : Addr) (v : Byte) :
    (s.storeDispatch addr v).pc = s.pc ∧ (s.storeDispatch addr v).sp = s.sp ∧ (s.storeDispatch addr v).a = s.a ∧
    (s.storeDispatch addr v).x = s.x ∧ (s.storeDispatch addr v).y = s.y ∧ (s.storeDispatch addr v).p = s.p ∧
    (s.storeDispatch addr v).run = s.run ∧ (s.storeDispatch addr v).inq = s.inq ∧
    (s.storeDispatch addr v).answer = s.answer := by
  rcases s.storeDispatch_cases addr v with ⟨_, _, h⟩ | ⟨_, _, h⟩ | ⟨_, h⟩
  · rcases s.dispWrite_cases (addr.toNat - 0x4000) v with ⟨_, h'⟩ | ⟨_, h'⟩ <;> simp [h, h']
  · simp [h]
  · simp [h]

/-- A dispatched store keeps raw memory's canonical form. -/
theorem State.storeDispatch_mem_wf (addr : Addr) (v : Byte) (h : s.mem.wf = true) :
    (s.storeDispatch addr v).mem.wf = true := by
  rcases s.storeDispatch_cases addr v with ⟨_, _, e⟩ | ⟨_, _, e⟩ | ⟨_, e⟩
  · rcases s.dispWrite_cases (addr.toNat - 0x4000) v with ⟨_, e'⟩ | ⟨_, e'⟩ <;> simpa [e, e'] using h
  · simpa [e] using h
  · simpa [e] using Memory.wf_write addr v h

/-- An instruction other than the absolute store leaves the display and the I/O controller alone. -/
theorem exec_devices_of_not_staAbs {i : Instr} {t : State} (hi : ∀ addr, i ≠ .staAbs addr)
    (h : exec i s = .next t) : SameDisplay s t ∧ SameIo s t := by
  have key : ∀ u : State, SameDisplay s u ∧ SameIo s u → exec i s = .next u → SameDisplay s t ∧ SameIo s t :=
    fun u hu he => by
      rw [he] at h
      cases h
      exact hu
  cases i with
  | staAbs addr => exact absurd rfl (hi addr)
  | bne rel =>
    cases hz : s.flag .z with
    | true => exact key _ (by simp [SameDisplay, SameIo]) (exec_bne_not_taken s rel hz)
    | false => exact key _ (by simp [SameDisplay, SameIo]) (exec_bne_taken s rel hz)
  | ldaImm imm => exact key _ (by simp [SameDisplay, SameIo]) (exec_ldaImm s imm)
  | ldaZp zp => exact key _ (by simp [SameDisplay, SameIo]) (exec_ldaZp s zp)
  | staZp zp => exact key _ (by simp [SameDisplay, SameIo]) (exec_staZp s zp)
  | adcImm imm => exact key _ (by simp [SameDisplay, SameIo]) (exec_adcImm s imm)
  | sbcImm imm => exact key _ (by simp [SameDisplay, SameIo]) (exec_sbcImm s imm)
  | incZp zp => exact key _ (by simp [SameDisplay, SameIo]) (exec_incZp s zp)
  | cmpImm imm => exact key _ (by simp [SameDisplay, SameIo]) (exec_cmpImm s imm)
  | sec => exact key _ (by simp [SameDisplay, SameIo]) (exec_sec s)
  | hlt => exact key _ (by simp [SameDisplay, SameIo]) (exec_hlt s)

end Sys2Proof.Machine
end

