-- ==== Sys2Proof/Tests/Slice0.lean ====
section
/-!
SUPPORT. Tests: decoding of words written out from the spec's encodings, the well-formedness checks, one step on small states
with the results of 95_test_vectors.md, and for each obligation with hypotheses a witness that meets them.
-/

namespace Sys2Proof.Tests

open Sys2Proof.Machine

/-! ## Well-formedness: each check refuses an ill-formed term -/

/-- An illegal opcode (30_encoding.md R91). -/
theorem test_wf_refuses_illegal_opcode : wellFormedBytes [0xEA#8] = false := by decide
/-- A missing operand byte (R82). -/
theorem test_wf_refuses_missing_operand : wellFormedBytes [0x8D#8, 0x00#8] = false := by decide
/-- A byte too many (R82). -/
theorem test_wf_refuses_extra_byte : wellFormedBytes [0x38#8, 0x00#8] = false := by decide
/-- No byte at all. -/
theorem test_wf_refuses_nothing : wellFormedBytes [] = false := by decide
/-- Operand bytes are never checked (R90). -/
theorem test_wf_accepts_any_operand : Instr.wellFormed (.staAbs 0xFFFF#16) = true := by decide

/-! ## Decoding: words written out bit by bit from 30_encoding.md R81 and R84 -/

theorem test_decode_lda_imm : decode [0b10101001#8, 0b10000000#8] = .instr (.ldaImm 0x80#8) [] := by decide
theorem test_decode_lda_zp : decode [0b10100101#8, 0b00010000#8] = .instr (.ldaZp 0x10#8) [] := by decide
theorem test_decode_sta_zp : decode [0b10000101#8, 0b11111111#8] = .instr (.staZp 0xFF#8) [] := by decide
/-- The low byte of the address comes first (R88). -/
theorem test_decode_sta_abs :
    decode [0b10001101#8, 0b00110100#8, 0b00010010#8] = .instr (.staAbs 0x1234#16) [] := by decide
theorem test_decode_adc : decode [0b01101001#8, 0b00000001#8] = .instr (.adcImm 0x01#8) [] := by decide
theorem test_decode_sbc : decode [0b11101001#8, 0b01011111#8] = .instr (.sbcImm 0x5F#8) [] := by decide
theorem test_decode_inc : decode [0b11100110#8, 0b00100000#8] = .instr (.incZp 0x20#8) [] := by decide
theorem test_decode_cmp : decode [0b11001001#8, 0b00000101#8] = .instr (.cmpImm 0x05#8) [] := by decide
theorem test_decode_bne : decode [0b11010000#8, 0b11110011#8] = .instr (.bne 0xF3#8) [] := by decide
theorem test_decode_sec : decode [0b00111000#8, 0xA9#8] = .instr .sec [0xA9#8] := by decide
theorem test_decode_hlt : decode [0b11111111#8] = .instr .hlt [] := by decide
/-- Vector DEC-6: a 6502 NOP is no opcode. -/
theorem test_decode_refuses_nop : decode [0xEA#8] = .refused (.unknownOpcode 0xEA#8) := by decide
theorem test_decode_refuses_truncated :
    decode [0x8D#8, 0x34#8] = .refused (.truncated .storeAccumulatorAbsolute) := by decide
/-- The opcode table's word: byte 0 is the least significant. -/
theorem test_table_word : decodeTableWord 24 0x12348D = some (.staAbs 0x1234#16) := by decide
/-- An operand the table gives no bits is zero. -/
theorem test_table_word_short : decodeTableWord 8 0xD0 = some (.bne 0x00#8) := by decide

/-! ## One step on small states, expected results from 95_test_vectors.md -/

/-- A running machine with PC, A and P as given and raw memory holding the cells. -/
def bench (pc : Addr) (a p : Byte) (cells : List Host.Cell) : State :=
  { State.reset with pc := pc, a := a, p := p, mem := ⟨cells⟩ }

/-- Something read from the next state, if there is one. -/
def after {α : Type} (o : Host.Outcome State Fault Refusal) (f : State → α) : Option α :=
  match o with
  | .next t => some (f t)
  | .fault _ => none
  | .refused _ => none

/-- LS-1. -/
theorem test_lda_imm_negative :
    after (step (bench 0x8000#16 0x00#8 0x20#8 [(0x8000, 0xA9#8), (0x8001, 0x80#8)])) (fun t => (t.a, t.p, t.pc)) =
      some (0x80#8, 0xA0#8, 0x8002#16) := by decide
/-- LS-2. -/
theorem test_lda_imm_zero :
    after (step (bench 0x8000#16 0x55#8 0xA1#8 [(0x8000, 0xA9#8)])) (fun t => (t.a, t.p)) = some (0x00#8, 0x23#8) := by
  decide
/-- LS-7: the instruction loads its own operand byte. -/
theorem test_lda_zp_own_operand :
    after (step (bench 0x0000#16 0x00#8 0x20#8 [(0x0000, 0xA5#8), (0x0001, 0x01#8)])) (fun t => (t.a, t.pc)) =
      some (0x01#8, 0x0002#16) := by decide
/-- LS-6. -/
theorem test_lda_zp_top_of_page_zero :
    after (step (bench 0x8000#16 0x00#8 0x20#8 [(0x00FF, 0xC3#8), (0x8000, 0xA5#8), (0x8001, 0xFF#8)]))
      (fun t => (t.a, t.p)) = some (0xC3#8, 0xA0#8) := by decide
/-- LS-8. -/
theorem test_sta_zp :
    after (step (bench 0x8000#16 0x42#8 0x22#8 [(0x8000, 0x85#8), (0x8001, 0x10#8)]))
      (fun t => (t.readByte 0x0010#16, t.p)) = some (0x42#8, 0x22#8) := by decide
/-- LS-20: the operand straddles the top of the address space. -/
theorem test_sta_abs_straddles_the_top :
    after (step (bench 0xFFFE#16 0x77#8 0x20#8 [(0x0000, 0x12#8), (0xFFFE, 0x8D#8), (0xFFFF, 0x34#8)]))
      (fun t => (t.readByte 0x1234#16, t.pc)) = some (0x77#8, 0x0001#16) := by decide
/-- LS-16: a mirrored port. -/
theorem test_sta_abs_mirrored_port :
    after (step (bench 0x8000#16 0x41#8 0x20#8 [(0x8000, 0x8D#8), (0x8001, 0x01#8), (0x8002, 0x51#8)]))
      (fun t => (t.ports.lookup 0x01#8, t.iolog, t.events, t.readByte 0x5101#16)) =
      some (some 0x41#8, [(0x01#8, 0x41#8)], [.charOut 0x41#8], 0x00#8) := by decide
/-- L1-4. -/
theorem test_adc_signed_overflow :
    after (step (bench 0x8000#16 0x7F#8 0x20#8 [(0x8000, 0x69#8), (0x8001, 0x01#8)])) (fun t => (t.a, t.p)) =
      some (0x80#8, 0xE0#8) := by decide
/-- ADC-10: the carry in counts. -/
theorem test_adc_carry_in :
    after (step (bench 0x8000#16 0xFF#8 0x21#8 [(0x8000, 0x69#8)])) (fun t => (t.a, t.p)) =
      some (0x00#8, 0x23#8) := by decide
/-- SBC-12: the operands are unsigned. -/
theorem test_sbc_unsigned_borrow :
    after (step (bench 0x8000#16 0x80#8 0x21#8 [(0x8000, 0xE9#8), (0x8001, 0x01#8)])) (fun t => (t.a, t.p)) =
      some (0x7F#8, 0x61#8) := by decide
/-- SBC-14: a borrow in. -/
theorem test_sbc_borrow_in :
    after (step (bench 0x8000#16 0x05#8 0x20#8 [(0x8000, 0xE9#8), (0x8001, 0x05#8)])) (fun t => (t.a, t.p)) =
      some (0xFF#8, 0xA0#8) := by decide
/-- INC-2. -/
theorem test_inc_wraps :
    after (step (bench 0x8000#16 0x00#8 0xE1#8 [(0x0010, 0xFF#8), (0x8000, 0xE6#8), (0x8001, 0x10#8)]))
      (fun t => (t.readByte 0x0010#16, t.p, t.mem.wf)) = some (0x00#8, 0x63#8, true) := by decide
/-- INC-5: the instruction increments its own operand byte. -/
theorem test_inc_own_operand :
    after (step (bench 0x0000#16 0x00#8 0x20#8 [(0x0000, 0xE6#8), (0x0001, 0x01#8)]))
      (fun t => (t.readByte 0x0001#16, t.pc)) = some (0x02#8, 0x0002#16) := by decide
/-- CMP-4. -/
theorem test_cmp_unsigned :
    after (step (bench 0x8000#16 0x01#8 0x20#8 [(0x8000, 0xC9#8), (0x8001, 0xFF#8)])) (fun t => (t.a, t.p)) =
      some (0x01#8, 0x20#8) := by decide
/-- CMP-11: V is not written. -/
theorem test_cmp_keeps_overflow :
    after (step (bench 0x8000#16 0x50#8 0x60#8 [(0x8000, 0xC9#8), (0x8001, 0x50#8)])) (fun t => t.p) =
      some 0x63#8 := by decide
/-- BR-1. -/
theorem test_bne_taken :
    after (step (bench 0x800F#16 0x00#8 0x20#8 [(0x800F, 0xD0#8), (0x8010, 0xF3#8)])) (fun t => t.pc) =
      some 0x8004#16 := by decide
/-- BR-7: the target wraps below zero. -/
theorem test_bne_wraps :
    after (step (bench 0x0000#16 0x00#8 0x20#8 [(0x0000, 0xD0#8), (0x0001, 0x80#8)])) (fun t => t.pc) =
      some 0xFF82#16 := by decide
/-- SEC-1. -/
theorem test_sec :
    after (step (bench 0x8000#16 0x00#8 0x20#8 [(0x8000, 0x38#8)])) (fun t => (t.p, t.pc)) =
      some (0x21#8, 0x8001#16) := by decide
/-- HLT-2. -/
theorem test_hlt_at_the_top :
    after (step (bench 0xFFFF#16 0x00#8 0x20#8 [(0xFFFF, 0xFF#8)])) (fun t => (t.run, t.pc, t.answer)) =
      some (.halted, 0x0000#16, some .halted) := by decide
/-- DEC-7. -/
theorem test_decode_failure_at_the_top :
    after (step (bench 0xFFFF#16 0x00#8 0x20#8 [])) (fun t => (t.run, t.pc, t.answer)) =
      some (.faulted 0x00#8, 0x0000#16, some (.decodeFailure 0x00#8)) := by decide
/-- RST-7: `load_program([12, 34], 0xFFFC)`, then reset. -/
theorem test_reset_vector :
    (State.powerOn.loadProgram [0x12#8, 0x34#8] 0xFFFC#16).applyReset.pc = 0x3412#16 := by decide
/-- MEM-1 and MEM-2. -/
theorem test_load_program_limit :
    ((State.powerOn.loadProgram [0x38#8, 0xA9#8] 0xFFFE#16).mem.cells,
      (State.powerOn.loadProgram [1#8, 2#8, 3#8] 0xFFFE#16).mem.cells) = ([(0xFFFE, 0x38#8), (0xFFFF, 0xA9#8)], []) := by
  decide
/-- MEM-5. -/
theorem test_read_word_wraps :
    (bench 0#16 0#8 0#8 [(0x0000, 0x12#8), (0xFFFF, 0x34#8)]).readWord 0xFFFF#16 = 0x1234#16 := by decide
/-- MEM-6: the queue is drained first. -/
theorem test_read_port :
    (({ State.reset with inq := [0x41#8], ports := ⟨[(2, 0x77#8)]⟩ } : State).readPort 0x02#8).1 = 0x41#8 ∧
      (({ State.reset with ports := ⟨[(2, 0x77#8)]⟩ } : State).readPort 0x02#8).1 = 0x77#8 ∧
      (State.reset.readPort 0x05#8).1 = 0x00#8 := by decide
/-- P1's branch: at 0x800A to 0x8004 the assembler writes F8. -/
theorem test_assemble_branch : assembleLine 0x800A#16 .bne (.wordValue 0x8004#16) = some (.bne 0xF8#8) := by decide
/-- P1's first lines. -/
theorem test_assemble_program :
    assembleProgram 0x8000#16 [.instr .lda (.immediate 0x00#8), .instr .sta (.byteValue 0x10#8), .word 0x8000#16] =
      some [(0x8000#16, 0xA9#8), (0x8001#16, 0x00#8), (0x8002#16, 0x85#8), (0x8003#16, 0x10#8), (0x8004#16, 0x00#8),
        (0x8005#16, 0x80#8)] := by decide
/-- The state the host makes of a table word steps into the instruction. -/
theorem test_with_fetch_word :
    after (step (State.reset.withFetchWord 8 0x38)) (fun t => (t.p, t.pc)) = some (0x21#8, 0x0001#16) := by decide

/-! ## Witnesses: each obligation's hypotheses are met -/

theorem witness_DecodedBytesAreTheEncoding :
    decode [0x8D#8, 0x34#8, 0x12#8, 0xFF#8] = .instr (.staAbs 0x1234#16) [0xFF#8] := by decide

/-- A running machine about to run `SEC`. -/
def secBench : State := bench 0x8000#16 0x7F#8 0x20#8 [(0x8000, 0x38#8)]

theorem witness_StepRunsTheDecodedInstruction :
    secBench.run = .running ∧ decode secBench.codeWindow = .instr .sec [0x00#8, 0x00#8] := by decide

theorem witness_IllegalOpcodeTakesDecodeFailure :
    State.reset.run = .running ∧ opcodeLength (State.reset.readByte State.reset.pc) = none := by decide

/-- One state in each run state; the running one on a legal and on an illegal byte. -/
theorem witness_StepActsByRunState :
    (secBench.run = .running ∧ decode secBench.codeWindow = .instr .sec [0x00#8, 0x00#8]) ∧
    (State.reset.run = .running ∧ opcodeLength (State.reset.readByte State.reset.pc) = none) ∧
    ({ State.reset with run := .halted } : State).run = .halted ∧
    ({ State.reset with run := .faulted 0xEA#8 } : State).run = .faulted 0xEA#8 ∧ State.powerOn.run = .notReset := by
  decide

/-- The hypothesis `step s = .next t` of the statements over all steps, on a running, a halted and a faulted machine. -/
theorem witness_step_answers_next :
    (∃ t, step secBench = .next t) ∧ (∃ t, step ({ State.reset with run := .halted }) = .next t) ∧
    (∃ t, step ({ State.reset with run := .faulted 0xEA#8 }) = .next t) := ⟨⟨_, rfl⟩, ⟨_, rfl⟩, ⟨_, rfl⟩⟩

theorem witness_StepAnswersOneOutcome : ∃ t, step secBench = .next t := ⟨_, rfl⟩

/-- Each clause: a halt, an illegal byte, a legal byte. -/
theorem witness_RunStopsOnlyAtHaltOrIllegalByte :
    (∃ t, step (bench 0x8000#16 0#8 0x20#8 [(0x8000, 0xFF#8)]) = .next t ∧ t.run = .halted) ∧
    (∃ t, step State.reset = .next t ∧ t.run = .faulted 0x00#8) ∧
    (∃ t, step secBench = .next t ∧ t.run = .running) := ⟨⟨_, rfl, rfl⟩, ⟨_, rfl, rfl⟩, ⟨_, rfl, rfl⟩⟩

theorem dispCells_pos : 0 < Config.dispCells := Nat.mul_pos (Nat.succ_pos _) (Nat.succ_pos _)

/-- Each range of the address map at its bounds; display offset 0 is in range whatever the display's size, and offset 0xFFF is
out of range for every display of at most 4095 cells. -/
theorem witness_StaAbsStoresByAddressMap :
    ((0x3FFF#16).toNat < 0x4000 ∧ 0x6000 ≤ (0x6000#16).toNat) ∧
    (0x4000 ≤ (0x4000#16).toNat ∧ (0x4FFF#16).toNat < 0x5000 ∧ (0x4000#16).toNat - 0x4000 < Config.dispCells) ∧
    (Config.dispCells ≤ 0xFFF → Config.dispCells ≤ (0x4FFF#16).toNat - 0x4000) ∧
    (0x5000 ≤ (0x5000#16).toNat ∧ (0x5FFF#16).toNat < 0x6000) :=
  ⟨by decide, ⟨by decide, by decide, dispCells_pos⟩, fun h => h, by decide⟩

theorem witness_BneBranchesWhenZeroIsClear : secBench.flag .z = false ∧ (bench 0#16 0#8 0x22#8 []).flag .z = true := by
  decide

theorem witness_LoadStepsFollowTheirPseudocode :
    (bench 0x8000#16 0#8 0x20#8 [(0x8000, 0xA9#8)]).run = .running ∧
    (bench 0x8000#16 0#8 0x20#8 [(0x8000, 0xA9#8)]).codeByte 0 = 0xA9#8 ∧
    (bench 0xFFFF#16 0#8 0x20#8 [(0xFFFF, 0xA5#8)]).codeByte 0 = 0xA5#8 := by decide

theorem witness_StoreStepsFollowTheirPseudocode :
    (bench 0x8000#16 0#8 0x20#8 [(0x8000, 0x85#8)]).run = .running ∧
    (bench 0x8000#16 0#8 0x20#8 [(0x8000, 0x85#8)]).codeByte 0 = 0x85#8 ∧
    (bench 0xFFFE#16 0#8 0x20#8 [(0xFFFE, 0x8D#8)]).codeByte 0 = 0x8D#8 := by decide

theorem witness_ArithmeticStepsFollowTheirPseudocode :
    (bench 0x8000#16 0#8 0x20#8 [(0x8000, 0x69#8)]).run = .running ∧
    (bench 0x8000#16 0#8 0x20#8 [(0x8000, 0x69#8)]).codeByte 0 = 0x69#8 ∧
    (bench 0x8000#16 0#8 0x20#8 [(0x8000, 0xE9#8)]).codeByte 0 = 0xE9#8 ∧
    (bench 0x8000#16 0#8 0x20#8 [(0x8000, 0xE6#8)]).codeByte 0 = 0xE6#8 ∧
    (bench 0x8000#16 0#8 0x20#8 [(0x8000, 0xC9#8)]).codeByte 0 = 0xC9#8 := by decide

/-- A machine at the source's branch example, Z clear or set. -/
def branchBench (p : Byte) : State := bench 0x800F#16 0#8 p [(0x800F, 0xD0#8), (0x8010, 0xF3#8)]

theorem witness_ControlStepsFollowTheirPseudocode :
    ((branchBench 0x20#8).run = .running ∧ (branchBench 0x20#8).codeByte 0 = 0xD0#8 ∧
      (branchBench 0x20#8).flag .z = false ∧ (branchBench 0x22#8).flag .z = true) ∧
    secBench.codeByte 0 = 0x38#8 ∧ (bench 0xFFFF#16 0#8 0x20#8 [(0xFFFF, 0xFF#8)]).codeByte 0 = 0xFF#8 := by decide

theorem witness_SourceWorkedExamples :
    (secBench.a = 0x7F#8 ∧ secBench.flag .c = false) ∧
    ((bench 0#16 0x00#8 0x21#8 []).a = 0x00#8 ∧ (bench 0#16 0x00#8 0x21#8 []).flag .c = true) ∧
    ((branchBench 0x20#8).run = .running ∧ (branchBench 0x20#8).pc = 0x800F#16 ∧ (branchBench 0x20#8).flag .z = false ∧
      (branchBench 0x20#8).readByte 0x800F#16 = 0xD0#8 ∧ (branchBench 0x20#8).readByte 0x8010#16 = 0xF3#8) := by decide

/-- The farthest targets forward and back. -/
theorem witness_AssembledBranchReachesItsTarget :
    branchOperand 0x1000#16 0x1081#16 = some 0x7F#8 ∧ branchOperand 0x1000#16 0x0F82#16 = some 0x80#8 ∧
    branchOperand 0x1000#16 0x1082#16 = none ∧ branchTarget (0x1000#16 + 2#16) 0x80#8 = 0x0F82#16 := by decide

theorem witness_CycleCostsFollowTheTable :
    State.reset.run = .running ∧ opcodeLength (State.reset.readByte State.reset.pc) = none := by decide

theorem witness_OnlyIllegalBytesRaiseDecodeFailure : secBench.run = .running ∧ ∃ t, step secBench = .next t :=
  ⟨rfl, _, rfl⟩

/-- A taken branch, a branch not taken, and an illegal byte. -/
theorem witness_StepLeavesPcPastInstructionOrAtTarget :
    ((branchBench 0x20#8).run = .running ∧ (branchBench 0x20#8).codeByte 0 = 0xD0#8 ∧ (branchBench 0x20#8).flag .z = false) ∧
    (opcodeLength ((branchBench 0x22#8).codeByte 0) = some 2 ∧ (branchBench 0x22#8).flag .z = true) ∧
    opcodeLength (State.reset.codeByte 0) = none ∧
    (∃ t, step (branchBench 0x20#8) = .next t) ∧ (∃ t, step (branchBench 0x22#8) = .next t) ∧
    (∃ t, step State.reset = .next t) :=
  ⟨by decide, by decide, by decide, ⟨_, rfl⟩, ⟨_, rfl⟩, ⟨_, rfl⟩⟩

theorem witness_StepNeverChangesIndexOrStackRegisters : ∃ t, step secBench = .next t := ⟨_, rfl⟩

theorem witness_StepMakesTheListedAccesses :
    (secBench.run = .running ∧ decode secBench.codeWindow = .instr .sec [0x00#8, 0x00#8] ∧ ∃ t, step secBench = .next t) ∧
    (opcodeLength (State.reset.readByte State.reset.pc) = none ∧ ∃ t, step State.reset = .next t) :=
  ⟨⟨by decide, by decide, _, rfl⟩, by decide, _, rfl⟩

/-- The bounds of the windows, and of page zero under an instruction that is no absolute store. -/
theorem witness_RawMemoryUnderTheWindowsIsNeverWritten :
    (∃ t, step secBench = .next t) ∧ (0x4000 ≤ (0x4000#16).toNat ∧ (0x5FFF#16).toNat < 0x6000) ∧
    (256 ≤ (0x0100#16).toNat ∧ secBench.codeByte 0 ≠ 0x8D#8) := ⟨⟨_, rfl⟩, by decide, by decide⟩

theorem witness_OnlyAbsoluteStoreReachesDevices :
    (∃ t, step secBench = .next t) ∧ secBench.codeByte 0 ≠ 0x8D#8 := ⟨⟨_, rfl⟩, by decide⟩

/-- A step that writes display cell 0, in range whatever the display's size: dirty afterwards. -/
theorem witness_DirtyFlagRecordsInRangeDisplayWrites :
    ∃ t, step (bench 0x8000#16 0x5A#8 0x20#8 [(0x8000, 0x8D#8), (0x8002, 0x40#8)]) = .next t ∧
      Access.dispWrite 0x000#12 0x5A#8 ∈ t.trace ∧ (0x000#12).toNat < Config.dispCells :=
  ⟨_, rfl, List.mem_of_getLast? rfl, dispCells_pos⟩

theorem witness_DisplayCellsFrom4096AreOutOfReach : (∃ t, step secBench = .next t) ∧ 4096 ≤ 4096 := ⟨⟨_, rfl⟩, by decide⟩

/-- A step that makes a port write. -/
theorem witness_WriteLogAndEventsGrowByPortWrites :
    ∃ t, step (bench 0x8000#16 0x41#8 0x20#8 [(0x8000, 0x8D#8), (0x8001, 0x01#8), (0x8002, 0x51#8)]) = .next t ∧
      t.iolog = [(0x01#8, 0x41#8)] := ⟨_, rfl, rfl⟩

theorem witness_PortsAreMirroredSixteenTimes : 0 < 16 ∧ 15 < 16 := by decide

/-- Each clause: a store to the last raw address below the windows, to the first window address, and the two zero-page forms at
the top of page zero, each with a state that fetches there from the memory after the store. -/
theorem witness_RawStoreIsSeenByTheNextFetch :
    (∃ t u : State, exec (.staAbs 0x3FFF#16) secBench = .next t ∧ u.mem = t.mem ∧ u.pc = 0x3FFF#16 ∧
      (0x3FFF#16).toNat < 0x4000) ∧
    (∃ t u : State, exec (.staAbs 0x4000#16) secBench = .next t ∧ u.mem = t.mem ∧ u.pc = 0x4000#16 ∧
      0x4000 ≤ (0x4000#16).toNat ∧ (0x4000#16).toNat < 0x6000) ∧
    (∃ t u : State, exec (.staZp 0xFF#8) secBench = .next t ∧ u.mem = t.mem ∧ u.pc = zpAddr 0xFF#8) ∧
    (∃ t u : State, exec (.incZp 0xFF#8) secBench = .next t ∧ u.mem = t.mem ∧ u.pc = zpAddr 0xFF#8) :=
  ⟨⟨_, { secBench with mem := _, pc := _ }, rfl, rfl, rfl, by decide⟩,
    ⟨_, { secBench with mem := _, pc := _ }, rfl, rfl, rfl, by decide, by decide⟩,
    ⟨_, { secBench with mem := _, pc := _ }, rfl, rfl, rfl⟩, ⟨_, { secBench with mem := _, pc := _ }, rfl, rfl, rfl⟩⟩

/-- Two machines that agree on what instructions read and differ in X and in the display's dirty flag. -/
theorem witness_StepReadsOnlyPcACarryZeroAndMemory :
    CoreAgree { secBench with x := 0x01#8, dirty := false } { secBench with x := 0x02#8, dirty := true } ∧
    ∃ t, step ({ secBench with x := 0x01#8, dirty := false }) = .next t :=
  ⟨⟨rfl, rfl, rfl, rfl, fun _ => rfl, rfl⟩, _, rfl⟩

theorem witness_CanonicalMemoriesWithEqualBytesAreEqual :
    (⟨[(0x0010, 0x05#8), (0xFFFF, 0x01#8)]⟩ : Memory).wf = true ∧
    ∀ a, (⟨[(0x0010, 0x05#8), (0xFFFF, 0x01#8)]⟩ : Memory).read a =
      (⟨[(0x0010, 0x05#8), (0xFFFF, 0x01#8)]⟩ : Memory).read a := ⟨by decide, fun _ => rfl⟩

/-- A program that ends at the top of memory, one byte inside it and one outside, and a program one byte too long. -/
theorem witness_LoadProgramCopiesOrIsRefused :
    (0xFFFE#16).toNat + [0x38#8, 0xA9#8].length ≤ 65536 ∧ (0xFFFF#16).toNat = (0xFFFE#16).toNat + 1 ∧
    1 < [0x38#8, 0xA9#8].length ∧ (0xFFFD#16).toNat < (0xFFFE#16).toNat ∧
    65536 < (0xFFFE#16).toNat + [1#8, 2#8, 3#8].length := by decide

/-- The last offset in range and the first one out of range. -/
theorem witness_DisplayWriteIsBoundsChecked :
    Config.dispCells - 1 < Config.dispCells ∧ Config.dispCells ≤ Config.dispCells :=
  ⟨Nat.sub_lt dispCells_pos (by decide), Nat.le_refl _⟩

theorem witness_PortWriteRecordsLogsAndEmits :
    (0x00#8 : Byte) = 0x00#8 ∧ (0x01#8 : Byte) = 0x01#8 ∧ (0x02#8 : Byte) ≠ 0x00#8 ∧ (0x02#8 : Byte) ≠ 0x01#8 := by
  decide

/-- A queue that holds a byte, an empty one, a port written and one never written. -/
theorem witness_PortReadDrainsTheQueueFirst :
    ({ State.reset with inq := [0x41#8] } : State).inq = 0x41#8 :: [] ∧ State.reset.inq = [] ∧
    ({ State.reset with ports := ⟨[(2, 0x77#8)]⟩ } : State).ports.lookup 0x02#8 = some 0x77#8 ∧
    State.reset.ports.lookup 0x05#8 = none := by decide

/-- Cell 0 holding the first and the last printable byte, and the bytes just outside. -/
theorem witness_RenderShowsPrintableCellsAndChangesNothing :
    0 < Config.dispCells ∧
    (0x20 ≤ (State.reset.disp.read 0).toNat ∧ (State.reset.disp.read 0).toNat < 0x7F) ∧
    (0x20 ≤ ((⟨[(0, 0x7E#8)]⟩ : DispBuffer).read 0).toNat ∧ ((⟨[(0, 0x7E#8)]⟩ : DispBuffer).read 0).toNat < 0x7F) ∧
    ((⟨[(0, 0x1F#8)]⟩ : DispBuffer).read 0).toNat < 0x20 ∧ 0x7F ≤ ((⟨[(0, 0x7F#8)]⟩ : DispBuffer).read 0).toNat :=
  ⟨dispCells_pos, by decide, by decide, by decide, by decide⟩

/-- Power-on: nothing is loaded. -/
theorem witness_FirstStepWithoutProgramFails :
    State.powerOn.readByte 0xFFFC#16 = 0x00#8 ∧ State.powerOn.readByte 0xFFFD#16 = 0x00#8 ∧
    State.powerOn.readByte 0x0000#16 = 0x00#8 := by decide

theorem witness_StoppedMachineStaysStopped :
    ({ State.reset with run := .halted } : State).stopped ∧
    ({ State.reset with run := .faulted 0xEA#8 } : State).stopped := ⟨.inl rfl, .inr ⟨_, rfl⟩⟩

/-- The reset state meets the invariant, runs, and steps. -/
theorem witness_Inv_at_reset : State.reset.Inv :=
  ⟨⟨rfl, rfl, rfl⟩, ⟨rfl, rfl, fun _ => ⟨rfl, rfl, rfl, rfl, rfl⟩⟩, ⟨fun _ => rfl, rfl⟩, fun _ => rfl,
    fun b h => (by cases h)⟩

theorem witness_StatusByteIsItsFlagsAndTheReservedBit : State.reset.Inv ∧ State.reset.run ≠ .notReset :=
  ⟨witness_Inv_at_reset, by decide⟩

theorem witness_InvariantIsKeptByEveryStep : State.reset.Inv ∧ ∃ t, step State.reset = .next t :=
  ⟨witness_Inv_at_reset, _, rfl⟩

theorem witness_InvariantIsKeptByHostOperations : State.reset.Inv := witness_Inv_at_reset

theorem witness_PlacedTableWordIsRunNext : decodeTableWord 24 0x40058D = some (.staAbs 0x4005#16) := by decide

end Sys2Proof.Tests
end

section
/-!
Byte and word writes of raw memory (spec 20_memory.md R48, R51 to R53).
-/

namespace Sys2Proof.Machine

/-! ### The bytes of a word as natural numbers -/

theorem toNat_lowByte (w : Addr) : (lowByte w).toNat = w.toNat % 256 :=
  BitVec.extractLsb'_toNat 0 8 w

/-- The high byte of a 16-bit value is its quotient by 256, with nothing cut off. -/
theorem toNat_highByte (w : Addr) : (highByte w).toNat = w.toNat / 256 := by
  have hshift : (highByte w).toNat = (w.toNat >>> 8) % 256 := BitVec.extractLsb'_toNat 8 8 w
  rw [hshift, Nat.shiftRight_eq_div_pow]
  omega

/-! ### Reading after a word write -/

variable (s : State)

/-- The write of the high byte, which comes second, does not reach the low byte's address, even where `a + 1` wraps
(20_memory.md R52). -/
@[simp] theorem State.readByte_writeWord_low (a v : Addr) : (s.writeWord a v).readByte a = lowByte v :=
  calc (s.writeWord a v).readByte a
      = (s.writeByte a (lowByte v)).readByte a := State.readByte_writeByte_other _ _ (addr_succ_ne a).symm
    _ = lowByte v := s.readByte_writeByte_same a _

@[simp] theorem State.readByte_writeWord_high (a v : Addr) : (s.writeWord a v).readByte (a + 1) = highByte v :=
  State.readByte_writeByte_same _ _ _

theorem State.readWord_writeWord (a v : Addr) : (s.writeWord a v).readWord a = v :=
  calc (s.writeWord a v).readWord a
      = wordOf (lowByte v) (highByte v) :=
        congrArg₂ wordOf (s.readByte_writeWord_low a v) (s.readByte_writeWord_high a v)
    _ = v := wordOf_low_high v

end Sys2Proof.Machine

namespace Sys2Proof

open Machine

/-- Settles O44: the read laws of a byte write, at its own address and at every other one. -/
theorem byteWriteSetsOneByte : Obligations.ByteWriteSetsOneByte := by
  intro s w v
  have hsame : (s.writeByte w v).readByte w = v := s.readByte_writeByte_same w v
  have hother : SameMemoryBut w s (s.writeByte w v) := fun _ ha => s.readByte_writeByte_other v ha
  exact ⟨hsame, hother, rfl⟩

/-- Settles O46: the two bytes of a word lie at different addresses, so each reads as written. -/
theorem wordWriteReadsBack : Obligations.WordWriteReadsBack := by
  intro s a v
  have hlow : ((s.writeWord a v).readByte a).toNat = v.toNat % 256 := by
    rw [s.readByte_writeWord_low, toNat_lowByte]
  have hhigh : ((s.writeWord a v).readByte (a + 1#16)).toNat = v.toNat / 256 :=
    (congrArg BitVec.toNat (s.readByte_writeWord_high a v)).trans (toNat_highByte v)
  exact ⟨s.readWord_writeWord a v, hlow, hhigh⟩

end Sys2Proof
end

section
/-!
The opcode table as a list of its rows, and the bytes the one-byte decoder accepts (spec 30_encoding.md R83 to R85).
-/

namespace Sys2Proof

/-- The tags of the opcode table, in the order of its rows (R84). -/
def Tag.table : List Tag :=
  [.loadAccumulatorImmediate, .loadAccumulatorZeroPage, .storeAccumulatorZeroPage, .storeAccumulatorAbsolute,
    .addWithCarryImmediate, .subtractWithCarryImmediate, .incrementZeroPage, .compareImmediate, .branchIfNotEqual,
    .setCarryFlag, .halt]

/-- The table has a row for every tag. -/
theorem Tag.mem_table (t : Tag) : t ∈ Tag.table := by cases t <;> decide

/-- The opcode column of the table. -/
theorem map_opcodeOf_table :
    Tag.table.map opcodeOf =
      [0xA9#8, 0xA5#8, 0x85#8, 0x8D#8, 0x69#8, 0xE9#8, 0xE6#8, 0xC9#8, 0xD0#8, 0x38#8, 0xFF#8] := rfl

theorem decodeOpcode_eq_tag_iff {b : Byte} {t : Tag} : decodeOpcode b = .tag t ↔ opcodeOf t = b := by
  constructor
  · exact fun h => (eq_opcodeOf_of_decodeOpcode h).symm
  · rintro rfl
    exact decodeOpcode_opcodeOf t

/-- The decoder accepts the bytes of the opcode column and no other. -/
theorem exists_decodeOpcode_eq_tag_iff {b : Byte} :
    (∃ t, decodeOpcode b = .tag t) ↔ b ∈ Tag.table.map opcodeOf := by
  simp only [decodeOpcode_eq_tag_iff, List.mem_map, Tag.mem_table, true_and]

/-- Settles O1: the accepted bytes are the table's opcode column, and a byte that is not accepted is carried. -/
theorem decoderAcceptsExactlyElevenOpcodes : Obligations.DecoderAcceptsExactlyElevenOpcodes := by
  intro b
  rw [← map_opcodeOf_table]
  refine ⟨exists_decodeOpcode_eq_tag_iff, fun hno => ?_⟩
  rcases decodeOpcode_cases b with ⟨t, ht, -⟩ | ⟨hunknown, -⟩
  · exact absurd ht (hno t)
  · exact hunknown

end Sys2Proof
end

section
/-!
The loads and stores as whole steps (spec 40_load_store.md R101, R104, R107, R109, R110): the fetch of the instruction at PC,
then its meaning in the state past its bytes.
-/

namespace Sys2Proof.Machine

/-! ### A step by the opcode at PC -/

variable {s : State}

/-- A running machine with a tag's opcode at PC executes the instruction of that tag and of the bytes after the opcode, in the
state past all of them. -/
theorem step_of_opcode (t : Tag) (hrun : s.run = .running) (hop : s.codeByte 0 = opcodeOf t) :
    step s = exec (assemble t ((List.range (operandBytes t)).map fun k => s.codeByte (k + 1)))
      (s.fetched (operandBytes t + 1)) := by
  have hdec : decodeOpcode (s.codeByte 0) = .tag t := decodeOpcode_eq_tag_iff.mpr hop.symm
  rcases step_running s hrun with ⟨t', hdec', hstep⟩ | ⟨hunknown, -⟩
  · obtain rfl : t' = t := OpcodeDecode.tag.inj (hdec'.symm.trans hdec)
    exact hstep
  · exact OpcodeDecode.noConfusion (hdec.symm.trans hunknown)

/-- The state past an opcode and one operand byte. -/
theorem State.fetched_two {op : Byte} (hop : s.codeByte 0 = op) :
    s.fetched 2 =
      { s with
        pc := s.pc + 2#16
        trace := [.memRead s.pc op, .memRead (s.pc + 1#16) (s.codeByte 1)] } := by
  subst hop
  have hpc : s.pc + BitVec.ofNat 16 0 = s.pc := BitVec.add_zero s.pc
  show ({ s with pc := _, trace := [.memRead (s.pc + BitVec.ofNat 16 0) _, _] } : State) = _
  rw [hpc]

/-! ### Operands and results -/

/-- The zero-page address is the number of the operand byte (R87). -/
theorem toNat_zpAddr (zp : Byte) : (zpAddr zp).toNat = zp.toNat := by
  have hlt : zp.toNat < 2 ^ 16 := zp.isLt.trans (by decide)
  rw [zpAddr_eq, BitVec.toNat_ofNat, Nat.mod_eq_of_lt hlt]

/-- The flags after loading a byte into A, where the fetches and the read `u` has done left P alone (41_arithmetic.md R120). -/
theorem flags_after_load {u : State} (hp : u.p = s.p) (v : Byte) (e : CycEntry) :
    ((((u.setA v).setZN v).answerOk e).flag .z = true ↔ v.toNat = 0) ∧
    ((((u.setA v).setZN v).answerOk e).flag .n = true ↔ 128 ≤ v.toNat) ∧
    SameFlagsBut [.z, .n] s (((u.setA v).setZN v).answerOk e) := by
  refine ⟨?_, ?_, ?_⟩
  · rw [State.answerOk_flag, State.flag_setZN_z, zeroFlag_iff]
  · rw [State.answerOk_flag, State.flag_setZN_n, negativeFlag_iff]
  · have hload : SameFlagsBut [.z, .n] s (u.setA v) := sameFlagsBut_of_p s hp (sameFlagsBut_refl s _)
    exact sameFlagsBut_setZN s (by simp) (by simp) v hload

end Sys2Proof.Machine

namespace Sys2Proof

open Machine

/-- Settles O23: each load is its fetches, for LDA zp one raw read, then A and `SetZN` of the loaded byte. -/
theorem loadStepsFollowTheirPseudocode : Obligations.LoadStepsFollowTheirPseudocode := by
  intro s hrun
  constructor
  · intro hop
    have hstep : step s = exec (.ldaImm (s.codeByte 1)) (s.fetched 2) :=
      step_of_opcode .loadAccumulatorImmediate hrun hop
    rw [exec_ldaImm] at hstep
    obtain ⟨hz, hn, hrest⟩ := flags_after_load (u := s.fetched 2) rfl (s.codeByte 1) .ldaImm
    refine ⟨_, s.codeByte 1, hstep, rfl, hz, hn, hrest, ?_⟩
    rw [State.fetched_two hop]
    rfl
  · intro hop
    have hstep : step s = exec (.ldaZp (s.codeByte 1)) (s.fetched 2) :=
      step_of_opcode .loadAccumulatorZeroPage hrun hop
    rw [exec_ldaZp, State.fetched_readByte] at hstep
    let ea := zpAddr (s.codeByte 1)
    obtain ⟨hz, hn, hrest⟩ :=
      flags_after_load (u := (s.fetched 2).noteAccess (.memRead ea (s.readByte ea))) rfl (s.readByte ea) .ldaZp
    refine ⟨_, ea, s.readByte ea, hstep, toNat_zpAddr _, rfl, hz, hn, hrest, ?_⟩
    rw [State.fetched_two hop]
    rfl

/-- Settles O24: STA zp is its fetches and one raw write; STA abs is the dispatched store to the word of its operand bytes. -/
theorem storeStepsFollowTheirPseudocode : Obligations.StoreStepsFollowTheirPseudocode := by
  intro s hrun
  constructor
  · intro hop
    have hstep : step s = exec (.staZp (s.codeByte 1)) (s.fetched 2) :=
      step_of_opcode .storeAccumulatorZeroPage hrun hop
    rw [exec_staZp, State.fetched_a] at hstep
    let ea := zpAddr (s.codeByte 1)
    have hwritten : (((s.fetched 2).busWrite ea s.a).answerOk .staZp).readByte ea = s.a := by
      rw [State.answerOk_readByte, State.readByte_busWrite, if_pos rfl]
    have hothers : SameMemoryBut ea s (((s.fetched 2).busWrite ea s.a).answerOk .staZp) := by
      intro a ha
      rw [State.answerOk_readByte, State.readByte_busWrite, if_neg ha, State.fetched_readByte]
    refine ⟨_, ea, hstep, toNat_zpAddr _, hwritten, hothers, ?_⟩
    rw [State.fetched_two hop]
    rfl
  · intro hop
    have hstep : step s = exec (.staAbs (wordOf (s.codeByte 1) (s.codeByte 2))) (s.fetched 3) :=
      step_of_opcode .storeAccumulatorAbsolute hrun hop
    rw [exec_staAbs, State.fetched_a] at hstep
    exact ⟨wordOf (s.codeByte 1) (s.codeByte 2), toNat_wordOf _ _, hstep⟩

end Sys2Proof
end

section
/-!
The zero and negative flags after any instruction (spec 41_arithmetic.md R120, R121).
-/

namespace Sys2Proof.Machine

/-- The mask of R121 keeps bit 7 and clears every other bit. -/
theorem negativeFlag_iff_and_mask (v : Byte) : negativeFlag v = true ↔ v &&& 0x80#8 ≠ 0#8 := by
  have hmask : v &&& 0x80#8 = if v.getLsbD 7 then 0x80#8 else 0#8 := BitVec.and_twoPow v 7
  rw [hmask, negativeFlag]
  cases v.getLsbD 7 <;> decide

/-- A state whose Z and N are what the flag unit computes of a byte meets R121 for that byte. -/
theorem zeroNegative_of_flags {t : State} {v : Byte} (hz : t.flag .z = zeroFlag v) (hn : t.flag .n = negativeFlag v) :
    (t.flag .z = true ↔ v = 0#8) ∧ (t.flag .n = true ↔ v &&& 0x80#8 ≠ 0#8) := by
  rw [hz, hn]
  exact ⟨decide_eq_true_iff, negativeFlag_iff_and_mask v⟩

/-- R121 right after `SetZN`, which the cycle cost does not touch. -/
theorem zeroNegative_setZN_answerOk (s : State) (v : Byte) (e : CycEntry) :
    (((s.setZN v).answerOk e).flag .z = true ↔ v = 0#8) ∧
    (((s.setZN v).answerOk e).flag .n = true ↔ v &&& 0x80#8 ≠ 0#8) :=
  zeroNegative_of_flags (s.flag_setZN_z v) (s.flag_setZN_n v)

/-- A dispatched store writes no flag, wherever it goes. -/
@[simp] theorem State.storeDispatch_flag (s : State) (addr : Addr) (v : Byte) (f : Flag) :
    (s.storeDispatch addr v).flag f = s.flag f := by
  obtain ⟨-, -, -, -, -, hp, -⟩ := s.storeDispatch_rest addr v
  rw [State.flag, hp, State.flag]

end Sys2Proof.Machine

namespace Sys2Proof

open Machine

/-- Settles O29, by the instruction: the loads, ADC, SBC and INC end in `SetZN` of their result, CMP in `SetZN` of its
difference and a write of C, and the others write neither flag. -/
theorem zeroNegativeFlagLaw : Obligations.ZeroNegativeFlagLaw := by
  intro i s
  cases i with
  | ldaImm imm => exact ⟨_, exec_ldaImm s imm, zeroNegative_setZN_answerOk _ imm _⟩
  | ldaZp zp => exact ⟨_, exec_ldaZp s zp, zeroNegative_setZN_answerOk _ (s.readByte (zpAddr zp)) _⟩
  | adcImm imm => exact ⟨_, exec_adcImm s imm, zeroNegative_setZN_answerOk _ (adcResult s.a imm (s.flag .c)) _⟩
  | sbcImm imm => exact ⟨_, exec_sbcImm s imm, zeroNegative_setZN_answerOk _ (sbcResult s.a imm (s.flag .c)) _⟩
  | incZp zp =>
    refine ⟨_, exec_incZp s zp, ?_⟩
    simp only [flagResult, State.answerOk_readByte, State.setZN_readByte, State.readByte_busWrite, if_pos]
    exact zeroNegative_setZN_answerOk _ _ _
  | cmpImm imm =>
    refine ⟨_, exec_cmpImm s imm, ?_⟩
    simp only [flagResult, ← cmpResult_eq_sub]
    refine zeroNegative_of_flags ?_ ?_
    · rw [State.answerOk_flag, State.flag_setFlag_other _ _ (by decide), State.flag_setZN_z]
    · rw [State.answerOk_flag, State.flag_setFlag_other _ _ (by decide), State.flag_setZN_n]
  | staZp zp => exact ⟨_, exec_staZp s zp, rfl, rfl⟩
  | staAbs addr => exact ⟨_, exec_staAbs s addr, s.storeDispatch_flag addr s.a .z, s.storeDispatch_flag addr s.a .n⟩
  | bne rel =>
    cases hz : s.flag .z with
    | true => exact ⟨_, exec_bne_not_taken s rel hz, hz, rfl⟩
    | false => exact ⟨_, exec_bne_taken s rel hz, hz, rfl⟩
  | sec => exact ⟨_, exec_sec s, s.flag_setFlag_other true (by decide), s.flag_setFlag_other true (by decide)⟩
  | hlt => exact ⟨_, exec_hlt s, rfl, rfl⟩

end Sys2Proof
end

section
/-!
The control instructions as meanings (spec 42_control.md).
-/

namespace Sys2Proof

open Machine

/-- Settles O21: the written flag reads as set, the flag rules of `setFlag` give the other flags and the reserved bit, and
neither the write nor the cycle cost touches a field other than P and the outcome. -/
theorem secSetsCarryAlone : Obligations.SecSetsCarryAlone := by
  intro s
  have hcarry : ((s.setFlag .c true).answerOk .sec).flag .c = true := by
    rw [State.answerOk_flag, State.flag_setFlag_same]
  have hset : SameFlagsBut [.c] s (s.setFlag .c true) :=
    sameFlagsBut_setFlag s (List.mem_singleton_self _) true (sameFlagsBut_refl s _)
  have hothers : SameFlagsBut [.c] s ((s.setFlag .c true).answerOk .sec) :=
    sameFlagsBut_of_p s (State.answerOk_p _ _) hset
  exact ⟨_, exec_sec s, hcarry, hothers, rfl⟩

end Sys2Proof
end

section
/-!
How an instruction ends, and which opcode fetches end a step in a decode failure (spec 60_exceptions.md R171, R172).
-/

namespace Sys2Proof.Machine

variable (s : State)

/-- The two ways an instruction ends: with its cycle cost in the run state it began in, or with the halt signal
(42_control.md R152, R164). -/
theorem exec_answerOk_or_signalHalt (i : Instr) :
    (∃ (u : State) (e : CycEntry), exec i s = .next (u.answerOk e) ∧ u.run = s.run) ∨ exec i s = .next s.signalHalt := by
  cases i with
  | ldaImm imm => exact .inl ⟨_, _, exec_ldaImm s imm, rfl⟩
  | ldaZp zp => exact .inl ⟨_, _, exec_ldaZp s zp, rfl⟩
  | staZp zp => exact .inl ⟨_, _, exec_staZp s zp, rfl⟩
  | staAbs addr =>
    obtain ⟨-, -, -, -, -, -, hrun, -⟩ := s.storeDispatch_rest addr s.a
    exact .inl ⟨_, _, exec_staAbs s addr, hrun⟩
  | adcImm imm => exact .inl ⟨_, _, exec_adcImm s imm, rfl⟩
  | sbcImm imm => exact .inl ⟨_, _, exec_sbcImm s imm, rfl⟩
  | incZp zp => exact .inl ⟨_, _, exec_incZp s zp, rfl⟩
  | cmpImm imm => exact .inl ⟨_, _, exec_cmpImm s imm, rfl⟩
  | bne rel =>
    cases hz : s.flag .z with
    | true => exact .inl ⟨_, _, exec_bne_not_taken s rel hz, rfl⟩
    | false => exact .inl ⟨_, _, exec_bne_taken s rel hz, rfl⟩
  | sec => exact .inl ⟨_, _, exec_sec s, rfl⟩
  | hlt => exact .inr (exec_hlt s)

/-- Neither way of ending is a decode failure, and the one that leaves the run state halts. -/
theorem exec_ne_decodeFailure (i : Instr) :
    ∃ t, exec i s = .next t ∧ (∀ b, t.answer ≠ some (.decodeFailure b)) ∧ (t.run = s.run ∨ t.run = .halted) := by
  rcases exec_answerOk_or_signalHalt s i with ⟨u, e, hexec, hrun⟩ | hexec
  · exact ⟨_, hexec, by simp, .inl hrun⟩
  · exact ⟨_, hexec, by simp, .inr rfl⟩

/-- The decoder rejects exactly the bytes without a length in R82's list. -/
theorem decodeOpcode_eq_unknownOpcode_iff {b : Byte} : decodeOpcode b = .unknownOpcode b ↔ opcodeLength b = none := by
  rw [opcodeLength_eq_none]
  rcases decodeOpcode_cases b with ⟨t, hdec, hb⟩ | ⟨hdec, hb⟩
  · simp only [hdec, reduceCtorEq, false_iff]
    exact fun hno => hno t hb
  · exact iff_of_true hdec hb

end Sys2Proof.Machine

namespace Sys2Proof

open Machine

/-- Settles O32: a decoded instruction ends with its cost or halts, so of the two things a running machine's step can do only
the fetch of a rejected byte answers the failure. -/
theorem onlyIllegalBytesRaiseDecodeFailure : Obligations.OnlyIllegalBytesRaiseDecodeFailure := by
  refine ⟨fun i s => exec_ne_decodeFailure s i, fun s t hrun hstep => ?_⟩
  rw [← s.codeByte_zero, ← decodeOpcode_eq_unknownOpcode_iff]
  rcases step_running s hrun with ⟨tag, hdec, hexec⟩ | ⟨hdec, hfail⟩
  · obtain ⟨u, hu, hno, -⟩ := exec_ne_decodeFailure (s.fetched (operandBytes tag + 1))
      (assemble tag ((List.range (operandBytes tag)).map fun k => s.codeByte (k + 1)))
    obtain rfl : u = t := Host.Outcome.next.inj (hu.symm.trans (hexec.symm.trans hstep))
    refine iff_of_false (fun ⟨b, hb⟩ => hno b hb) ?_
    rw [hdec]
    exact OpcodeDecode.noConfusion
  · obtain rfl : _ = t := Host.Outcome.next.inj (hfail.symm.trans hstep)
    exact iff_of_true ⟨_, State.raiseDecodeFailure_answer _ _⟩ hdec

end Sys2Proof
end

section
/-!
The decoder of byte lists and the encoder are inverse to each other (spec 30_encoding.md R80 to R91).
-/

namespace Sys2Proof

/-! ### Operand bytes and operands -/

/-- Assembling the operand bytes of an instruction gives it back; for the absolute store the word is its two bytes. -/
@[simp] theorem assemble_operandsOf (i : Instr) : assemble i.tag (operandsOf i) = i := by
  cases i with
  | staAbs addr => exact congrArg Instr.staAbs (Machine.wordOf_low_high addr)
  | _ => rfl

/-- The operand bytes of an assembled instruction are those it was assembled from, where they are as many as its tag asks
for. -/
theorem operandsOf_assemble {t : Tag} {ops : List Byte} (h : ops.length = operandBytes t) :
    operandsOf (assemble t ops) = ops := by
  cases t with
  | setCarryFlag | halt => exact (List.length_eq_zero_iff.mp h).symm
  | storeAccumulatorAbsolute =>
    obtain ⟨lo, hi, rfl⟩ := List.length_eq_two.mp h
    simp [assemble, operandsOf, operandByte]
  | _ =>
    obtain ⟨b, rfl⟩ := List.length_eq_one_iff.mp h
    rfl

theorem encode_assemble {t : Tag} {ops : List Byte} (h : ops.length = operandBytes t) :
    encode (assemble t ops) = opcodeOf t :: ops := by
  rw [encode, tag_assemble, operandsOf_assemble h]

@[simp] theorem length_encode (i : Instr) : (encode i).length = operandBytes i.tag + 1 := by
  rw [encode, List.length_cons, length_operandsOf]

/-! ### Decoding a list -/

/-- What the decoder does behind a legal opcode. -/
theorem decode_opcodeOf_cons (t : Tag) (rest : List Byte) :
    decode (opcodeOf t :: rest) =
      if rest.length < operandBytes t then .refused (.truncated t)
      else .instr (assemble t (rest.take (operandBytes t))) (rest.drop (operandBytes t)) := by
  simp only [decode, decodeOpcode_opcodeOf]

/-- What the decoder does behind a byte without a length. -/
theorem decode_cons_of_opcodeLength_eq_none {b : Byte} (h : opcodeLength b = none) (rest : List Byte) :
    decode (b :: rest) = .refused (.unknownOpcode b) := by
  simp only [decode, Machine.decodeOpcode_eq_unknownOpcode_iff.mpr h]

/-- The decoder reads an instruction from exactly the lists that begin with its encoding. -/
theorem decode_eq_instr_iff {bs : List Byte} {i : Instr} {rest : List Byte} :
    decode bs = .instr i rest ↔ bs = encode i ++ rest := by
  constructor
  · intro h
    match bs with
    | [] => cases h
    | b :: tail =>
      rcases decodeOpcode_cases b with ⟨t, -, rfl⟩ | ⟨-, hno⟩
      · rw [decode_opcodeOf_cons] at h
        split at h
        next => cases h
        next hlong =>
          have hlen : (tail.take (operandBytes t)).length = operandBytes t :=
            List.length_take_of_le (Nat.le_of_not_lt hlong)
          obtain ⟨rfl, rfl⟩ := DecodeResult.instr.inj h
          rw [encode_assemble hlen, List.cons_append, List.take_append_drop]
      · rw [decode_cons_of_opcodeLength_eq_none (opcodeLength_eq_none.mpr hno)] at h
        cases h
  · rintro rfl
    have hlong : ¬(operandsOf i ++ rest).length < operandBytes i.tag := by simp
    rw [encode, List.cons_append, decode_opcodeOf_cons, if_neg hlong, List.take_left' (length_operandsOf i),
      List.drop_left' (length_operandsOf i), assemble_operandsOf]

/-! ### Well-formed bytes -/

/-- The bytes of exactly one instruction (R82, R91) are the encodings. -/
theorem wellFormedBytes_iff {bs : List Byte} : wellFormedBytes bs = true ↔ ∃ i, bs = encode i := by
  constructor
  · intro h
    match bs with
    | [] => cases h
    | b :: ops =>
      have hlength : opcodeLength b = some (ops.length + 1) := by simpa [wellFormedBytes] using h
      obtain ⟨t, rfl⟩ := exists_opcodeOf_of_opcodeLength hlength
      have hops : ops.length = operandBytes t := by simpa using hlength.symm
      exact ⟨assemble t ops, (encode_assemble hops).symm⟩
  · rintro ⟨i, rfl⟩
    simp [encode, wellFormedBytes]

/-- Settles O3: the operand bytes come back as they were taken apart, and the rest is what stands behind them. -/
theorem decodeOfEncodeIsTheInstruction : Obligations.DecodeOfEncodeIsTheInstruction :=
  fun _ _ => decode_eq_instr_iff.mpr rfl

/-- Settles O4: the opcode fixes the tag, and the operand bytes are read back from the assembled operands. -/
theorem decodedBytesAreTheEncoding : Obligations.DecodedBytesAreTheEncoding :=
  fun _ _ _ => decode_eq_instr_iff.mp

/-- Settles O5: lists that decode begin with an encoding, the encodings are the well-formed bytes, and of the refusals only
that of an unknown opcode carries a byte. -/
theorem decodeAcceptsExactlyWellFormedBytes : Obligations.DecodeAcceptsExactlyWellFormedBytes := by
  intro bs
  constructor
  · simp only [decode_eq_instr_iff, wellFormedBytes_iff]
    constructor
    · rintro ⟨i, rest, hbs⟩
      exact ⟨encode i, rest, hbs, i, rfl⟩
    · rintro ⟨_, rest, hbs, i, rfl⟩
      exact ⟨i, rest, hbs⟩
  · rintro b rest rfl
    refine ⟨fun h => decode_cons_of_opcodeLength_eq_none h rest, fun h => ?_⟩
    rcases decodeOpcode_cases b with ⟨t, -, rfl⟩ | ⟨-, hno⟩
    · rw [decode_opcodeOf_cons] at h
      split at h <;> cases h
    · exact opcodeLength_eq_none.mpr hno

/-- Settles O2: each sequence is the encoding of its instruction, and nothing is left but the byte behind HLT. -/
theorem writtenOutBytesDecode : Obligations.WrittenOutBytesDecode := by
  refine ⟨?_, ?_, ?_, ?_, ?_, ?_, ?_, ?_, ?_, ?_, ?_⟩ <;> exact decode_eq_instr_iff.mpr rfl

end Sys2Proof
end

section
/-!
What a step can do, said once for all steps: it executes the instruction whose encoding stands at PC, it fails on a byte that
is no opcode, or it is the step of a stopped machine (spec 42_control.md R150, R152).
-/

namespace Sys2Proof.Machine

variable {s t : State}

/-! ### The bytes at PC -/

/-- The decoder reads the instruction of a legal opcode at PC from the three bytes there: they are enough for every opcode. -/
theorem decode_codeWindow {tag : Tag} (hop : s.codeByte 0 = opcodeOf tag) :
    ∃ rest, decode s.codeWindow =
      .instr (assemble tag ((List.range (operandBytes tag)).map fun k => s.codeByte (k + 1))) rest := by
  rw [State.codeWindow, hop]
  cases tag <;> exact ⟨_, decode_opcodeOf_cons _ _⟩

/-- An instruction read from the bytes at PC has the byte at PC as its opcode. -/
theorem codeByte_zero_of_decode {i : Instr} {rest : List Byte} (h : decode s.codeWindow = .instr i rest) :
    s.codeByte 0 = opcodeOf i.tag := by
  have hbytes : s.codeWindow = encode i ++ rest := decode_eq_instr_iff.mp h
  rw [encode, List.cons_append] at hbytes
  exact (List.cons.inj hbytes).1

theorem opcodeLength_of_decode {i : Instr} {rest : List Byte} (h : decode s.codeWindow = .instr i rest) :
    opcodeLength (s.codeByte 0) = some (operandBytes i.tag + 1) := by
  rw [codeByte_zero_of_decode h, opcodeLength_opcodeOf]

/-- The bytes at PC decode exactly where the byte at PC is an opcode. -/
theorem exists_decode_codeWindow_iff :
    (∃ i rest, decode s.codeWindow = .instr i rest) ↔ opcodeLength (s.codeByte 0) ≠ none := by
  constructor
  · rintro ⟨i, rest, hdec⟩
    rw [opcodeLength_of_decode hdec]
    exact Option.some_ne_none _
  · intro h
    obtain ⟨n, hn⟩ := Option.ne_none_iff_exists'.mp h
    obtain ⟨tag, hop⟩ := exists_opcodeOf_of_opcodeLength hn
    exact ⟨_, decode_codeWindow hop⟩

/-! ### A running machine -/

/-- A running machine executes the instruction its bytes at PC decode to, in the state past its bytes. -/
theorem step_of_decode {i : Instr} {rest : List Byte} (hrun : s.run = .running)
    (hdec : decode s.codeWindow = .instr i rest) : step s = exec i (s.fetched (encode i).length) := by
  have hop := codeByte_zero_of_decode hdec
  obtain ⟨rest', hdec'⟩ := decode_codeWindow hop
  obtain ⟨hi, -⟩ := DecodeResult.instr.inj (hdec.symm.trans hdec')
  rw [step_of_opcode i.tag hrun hop, ← hi, length_encode]

/-- A running machine takes the decode failure on a byte that is no opcode. -/
theorem step_of_opcodeLength_eq_none (hrun : s.run = .running) (hlen : opcodeLength (s.codeByte 0) = none) :
    step s = .next ((s.fetched 1).raiseDecodeFailure (s.codeByte 0)) := by
  rcases step_running s hrun with ⟨tag, hdec, -⟩ | ⟨-, hstep⟩
  · exact absurd (eq_opcodeOf_of_decodeOpcode hdec) (opcodeLength_eq_none.mp hlen tag)
  · exact hstep

/-! ### Every step -/

theorem step_notReset_ne_next (hrun : s.run = .notReset) (t : State) : step s ≠ .next t := by
  rw [step_notReset s hrun]
  exact fun h => nomatch h

/-- The ways a step from `s` reaches a next state. -/
inductive StepTo (s : State) : State → Prop
  /-- The instruction at PC is executed. -/
  | executes {i : Instr} {rest : List Byte} {t : State} (hrun : s.run = .running)
      (hdec : decode s.codeWindow = .instr i rest) (hexec : exec i (s.fetched (encode i).length) = .next t) : StepTo s t
  /-- The byte at PC is no opcode. -/
  | fails (hrun : s.run = .running) (hlen : opcodeLength (s.codeByte 0) = none) :
      StepTo s ((s.fetched 1).raiseDecodeFailure (s.codeByte 0))
  | staysHalted (hrun : s.run = .halted) : StepTo s s.stepHalted
  | staysFaulted {b : Byte} (hrun : s.run = .faulted b) : StepTo s (s.stepFaulted b)

/-- `StepTo` is the step. -/
theorem step_eq_next_iff : step s = .next t ↔ StepTo s t := by
  constructor
  · intro h
    cases hrun : s.run with
    | notReset => exact absurd h (step_notReset_ne_next hrun t)
    | halted =>
      obtain rfl := Host.Outcome.next.inj ((step_halted s hrun).symm.trans h)
      exact .staysHalted hrun
    | faulted b =>
      obtain rfl := Host.Outcome.next.inj ((step_faulted s hrun).symm.trans h)
      exact .staysFaulted hrun
    | running =>
      by_cases hlen : opcodeLength (s.codeByte 0) = none
      · obtain rfl := Host.Outcome.next.inj ((step_of_opcodeLength_eq_none hrun hlen).symm.trans h)
        exact .fails hrun hlen
      · obtain ⟨i, rest, hdec⟩ := exists_decode_codeWindow_iff.mpr hlen
        exact .executes hrun hdec ((step_of_decode hrun hdec).symm.trans h)
  · rintro (⟨hrun, hdec, hexec⟩ | ⟨hrun, hlen⟩ | hrun | hrun)
    · exact (step_of_decode hrun hdec).trans hexec
    · exact step_of_opcodeLength_eq_none hrun hlen
    · exact step_halted s hrun
    · exact step_faulted s hrun

/-- Outside NotReset every step answers a next state. -/
theorem exists_step_eq_next (h : s.run ≠ .notReset) : ∃ t, step s = .next t := by
  cases hrun : s.run with
  | notReset => exact absurd hrun h
  | halted => exact ⟨_, step_halted s hrun⟩
  | faulted b => exact ⟨_, step_faulted s hrun⟩
  | running =>
    by_cases hlen : opcodeLength (s.codeByte 0) = none
    · exact ⟨_, step_of_opcodeLength_eq_none hrun hlen⟩
    · obtain ⟨i, rest, hdec⟩ := exists_decode_codeWindow_iff.mpr hlen
      rw [step_of_decode hrun hdec]
      exact exec_next _ i

/-! ### Stopped machines -/

theorem sameState_stepHalted (s : State) : SameState s s.stepHalted := rfl

theorem sameState_stepFaulted (s : State) (b : Byte) : SameState s (s.stepFaulted b) := rfl

theorem SameState.refl (s : State) : SameState s s := rfl

theorem SameState.trans {u : State} (hst : SameState s t) (htu : SameState t u) : SameState s u := by
  rw [SameState] at *
  rw [htu, hst]

theorem SameState.stopped (h : SameState s t) (hs : s.stopped) : t.stopped := by
  rw [SameState] at h
  rw [h]
  exact hs

/-- A step of a stopped machine changes nothing but the outputs of the step. -/
theorem State.stopped.step_sameState (h : s.stopped) : ∃ t, step s = .next t ∧ SameState s t := by
  rcases h with hrun | ⟨b, hrun⟩
  · exact ⟨_, step_halted s hrun, sameState_stepHalted s⟩
  · exact ⟨_, step_faulted s hrun, sameState_stepFaulted s b⟩

/-- So does any number of steps. -/
theorem State.stopped.runSteps_sameState (h : s.stopped) (k : Nat) : ∃ u, runSteps k s = .next u ∧ SameState s u := by
  induction k generalizing s with
  | zero => exact ⟨s, rfl, .refl s⟩
  | succ k ih =>
    obtain ⟨t, hstep, hst⟩ := h.step_sameState
    obtain ⟨u, hrun, htu⟩ := ih (hst.stopped h)
    refine ⟨u, ?_, hst.trans htu⟩
    rw [runSteps, Host.Core.run]
    simp only [hstep]
    exact hrun

end Sys2Proof.Machine

namespace Sys2Proof

open Machine

/-- Settles O6: the step fetches the bytes the decoder reads from the window. -/
theorem stepRunsTheDecodedInstruction : Obligations.StepRunsTheDecodedInstruction := by
  intro s hrun
  rw [← s.codeByte_zero]
  exact ⟨fun i rest hdec => step_of_decode hrun hdec, exists_decode_codeWindow_iff⟩

/-- Settles O8, by the run state. -/
theorem stepActsByRunState : Obligations.StepActsByRunState := by
  intro s
  refine ⟨fun hrun => ⟨fun i rest hdec => step_of_decode hrun hdec, fun hlen => ?_⟩, fun hrun => ?_, fun b hrun => ?_,
    step_notReset s⟩
  · rw [← s.codeByte_zero] at hlen ⊢
    exact step_of_opcodeLength_eq_none hrun hlen
  · exact ⟨_, step_halted s hrun, sameState_stepHalted s, rfl⟩
  · exact ⟨_, step_faulted s hrun, sameState_stepFaulted s b, rfl⟩

/-- Settles O9: `Fault` has no term, and of the run states only NotReset refuses. -/
theorem stepIsRefusedExactlyBeforeReset : Obligations.StepIsRefusedExactlyBeforeReset := by
  intro s
  have hrefused : (∃ r, step s = .refused r) → s.run = .notReset := by
    rintro ⟨r, hr⟩
    by_contra hrun
    obtain ⟨t, ht⟩ := exists_step_eq_next hrun
    exact nomatch ht.symm.trans hr
  have hnext : (∃ t, step s = .next t) → s.run ≠ .notReset :=
    fun ⟨t, ht⟩ hrun => step_notReset_ne_next hrun t ht
  exact ⟨nofun, ⟨hrefused, fun hrun => ⟨_, step_notReset s hrun⟩⟩, ⟨hnext, exists_step_eq_next⟩⟩

/-- Settles O53, by induction on the number of steps. -/
theorem stoppedMachineStaysStopped : Obligations.StoppedMachineStaysStopped :=
  fun _ hstopped k => hstopped.runSteps_sameState k

/-- Settles O7: the step takes the failure after one fetch, and the faulted state it leaves is stopped. -/
theorem illegalOpcodeTakesDecodeFailure : Obligations.IllegalOpcodeTakesDecodeFailure := by
  intro s hrun hlen
  rw [← s.codeByte_zero] at hlen ⊢
  refine ⟨_, step_of_opcodeLength_eq_none hrun hlen, ?_, State.stopped.runSteps_sameState (.inr ⟨_, rfl⟩)⟩
  simp [State.raiseDecodeFailure, State.fetched]

end Sys2Proof
end

section
/-!
What executing an instruction does, said once for all instructions: where PC and the run state go, what it answers, which
transactions it makes, and that raw memory and the devices are changed by those transactions alone (spec 20_memory.md R55,
R70).
-/

namespace Sys2Proof.Machine

/-! ### Transactions and what they do -/

/-- Raw memory and the devices: the part of the state that transactions reach. -/
structure Board where
  mem : Memory
  disp : DispBuffer
  dirty : Bool
  ports : PortMap
  iolog : List (Byte × Byte)
  inq : List Byte
  events : List OutEvent

/-- The board of a machine. -/
def State.board (s : State) : Board := ⟨s.mem, s.disp, s.dirty, s.ports, s.iolog, s.inq, s.events⟩

/-- What the receiver of a transaction does (20_memory.md R47, R48; 60_exceptions.md R180, R185). -/
def State.perform (s : State) : Access → State
  | .memRead _ _ => s
  | .memWrite a v => s.writeByte a v
  | .dispWrite off v => s.dispWrite off.toNat v
  | .portWrite p v => s.portWrite p v

/-- The transactions of a list, one after the other. -/
def State.performAll (s : State) (l : List Access) : State := l.foldl State.perform s

/-- The transaction of a dispatched store (20_memory.md R58). -/
def storeAccess (addr : Addr) (v : Byte) : Access :=
  match storeTarget addr with
  | .display off => .dispWrite off v
  | .port p => .portWrite p v
  | .rawMemory => .memWrite addr v

theorem State.storeDispatch_eq (s : State) (addr : Addr) (v : Byte) :
    s.storeDispatch addr v = (s.perform (storeAccess addr v)).noteAccess (storeAccess addr v) := by
  unfold State.storeDispatch storeAccess
  cases storeTarget addr <;> rfl

theorem State.dispWrite_trace (s : State) (off : Nat) (v : Byte) : (s.dispWrite off v).trace = s.trace := by
  rw [s.dispWrite_eq off v]

@[simp] theorem State.perform_trace (s : State) (a : Access) : (s.perform a).trace = s.trace := by
  cases a with
  | dispWrite off v => exact s.dispWrite_trace off.toNat v
  | _ => rfl

/-- What a transaction makes of the board depends on the board alone. -/
theorem State.board_perform_congr {s t : State} (h : s.board = t.board) (a : Access) :
    (s.perform a).board = (t.perform a).board := by
  simp only [State.board, Board.mk.injEq] at h
  obtain ⟨hmem, hdisp, hdirty, hports, hlog, hinq, hevents⟩ := h
  cases a with
  | memRead a v => simp [State.perform, State.board, *]
  | memWrite a v => simp [State.perform, State.board, *]
  | portWrite p v => simp [State.perform, State.board, *]
  | dispWrite off v =>
    by_cases hoff : off.toNat < Config.dispCells <;> simp [State.perform, State.dispWrite, State.board, *]

theorem State.board_performAll_congr {s t : State} (h : s.board = t.board) (l : List Access) :
    (s.performAll l).board = (t.performAll l).board := by
  induction l generalizing s t with
  | nil => exact h
  | cons a rest ih => exact ih (State.board_perform_congr h a)

theorem State.performAll_append (s : State) (l l' : List Access) :
    s.performAll (l ++ l') = (s.performAll l).performAll l' :=
  List.foldl_append

/-- Reads do nothing. -/
theorem State.performAll_reads (s : State) {α : Type} (l : List α) (a : α → Addr) (v : α → Byte) :
    s.performAll (l.map fun k => .memRead (a k) (v k)) = s := by
  induction l with
  | nil => rfl
  | cons k rest ih => exact ih

/-! ### The transactions an instruction makes -/

/-- INC's result is the byte plus one (41_arithmetic.md R135). -/
theorem incResult_eq (v : Byte) : incResult v = v + 1 := by
  apply BitVec.eq_of_toNat_eq
  rw [incResult_toNat, BitVec.toNat_add]
  rfl

/-- The absolute store makes the transaction of its dispatch. -/
theorem dataAccesses_staAbs (addr : Addr) (s : State) :
    dataAccesses (.staAbs addr) s = [storeAccess addr s.a] := by
  simp only [dataAccesses, storeAccess, BitVec.lt_def, BitVec.reduceToNat]
  rcases storeTarget_cases addr with ⟨hlow, hhigh, ht⟩ | ⟨hlow, hhigh, ht⟩ | ⟨hout, ht⟩
  · have hoff : (addr - 0x4000#16).setWidth 12 = BitVec.ofNat 12 (addr.toNat - 0x4000) := by
      apply BitVec.eq_of_toNat_eq
      simp only [BitVec.toNat_setWidth, BitVec.toNat_sub, BitVec.toNat_ofNat]
      omega
    rw [ht, if_neg (by omega), if_pos hhigh, hoff]
  · have hport : addr.setWidth 8 = BitVec.ofNat 8 (addr.toNat - 0x5000) := by
      apply BitVec.eq_of_toNat_eq
      simp only [BitVec.toNat_setWidth, BitVec.toNat_ofNat]
      omega
    rw [ht, if_neg (by omega), if_neg (by omega), if_pos hhigh, hport]
  · rw [ht]
    rcases hout with hlow | hhigh
    · rw [if_pos hlow]
    · rw [if_neg (by omega), if_neg (by omega), if_neg (by omega)]

/-- The transactions depend on A and on the bytes of raw memory alone. -/
theorem dataAccesses_congr (i : Instr) {s t : State} (ha : s.a = t.a) (hbyte : ∀ k, s.readByte k = t.readByte k) :
    dataAccesses i s = dataAccesses i t := by
  cases i <;> simp only [dataAccesses, ha, hbyte]

/-! ### The flags an instruction writes -/

/-- The state after ADC or SBC, by the result, the carry and the overflow (41_arithmetic.md R125, R130). -/
def State.arith (s : State) (r : Byte) (carry overflow : Bool) (e : CycEntry) : State :=
  ((((s.setFlag .c carry).setFlag .v overflow).setA r).setZN r).answerOk e

theorem exec_adcImm_eq_arith (s : State) (imm : Byte) :
    exec (.adcImm imm) s =
      .next (s.arith (adcResult s.a imm (s.flag .c)) (adcCarry s.a imm (s.flag .c)) (adcOverflow s.a imm (s.flag .c))
        .adcImm) := rfl

theorem exec_sbcImm_eq_arith (s : State) (imm : Byte) :
    exec (.sbcImm imm) s =
      .next (s.arith (sbcResult s.a imm (s.flag .c)) (sbcCarry s.a imm (s.flag .c)) (sbcOverflow s.a imm (s.flag .c))
        .sbcImm) := rfl

section

variable (s : State) (r : Byte) (carry overflow : Bool) (e : CycEntry)

/-- ADC and SBC touch A, P and the answer alone. -/
theorem State.arith_eq :
    s.arith r carry overflow e =
      { s with a := r, p := (s.arith r carry overflow e).p, answer := some (.ok (Config.cyc e)) } := by
  simp [State.arith, State.answerOk, State.setZN, State.setFlag, State.setA]

@[simp] theorem State.arith_a : (s.arith r carry overflow e).a = r := rfl

@[simp] theorem State.arith_flag_c : (s.arith r carry overflow e).flag .c = carry := by
  simp [State.arith, State.flag_setFlag, State.flag_setZN]

@[simp] theorem State.arith_flag_v : (s.arith r carry overflow e).flag .v = overflow := by
  simp [State.arith]

@[simp] theorem State.arith_flag_z : (s.arith r carry overflow e).flag .z = zeroFlag r := by
  simp [State.arith]

@[simp] theorem State.arith_flag_n : (s.arith r carry overflow e).flag .n = negativeFlag r := by
  simp [State.arith]

/-- ADC and SBC write C, V, Z and N alone. -/
theorem sameFlagsBut_arith : SameFlagsBut [.c, .v, .z, .n] s (s.arith r carry overflow e) := by
  have hcarry : SameFlagsBut [.c, .v, .z, .n] s (s.setFlag .c carry) :=
    sameFlagsBut_setFlag s (by decide) _ (sameFlagsBut_refl s _)
  have hoverflow := sameFlagsBut_setFlag s (f := .v) (by decide) overflow hcarry
  exact sameFlagsBut_setZN s (by decide) (by decide) r (sameFlagsBut_of_p s (State.setA_p _ r) hoverflow)

end

/-- An instruction that ends in `SetZN` writes Z and N alone, where it has left P alone before. -/
theorem sameFlagsBut_setZN_answerOk {s u : State} (hp : u.p = s.p) (v : Byte) (e : CycEntry) :
    SameFlagsBut [.z, .n] s ((u.setZN v).answerOk e) :=
  sameFlagsBut_setZN s (by decide) (by decide) v (sameFlagsBut_of_p s hp (sameFlagsBut_refl s _))

/-- Every instruction leaves the flags outside its list (10_state.md R28 to R31). -/
theorem exec_flags {i : Instr} {s t : State} (h : exec i s = .next t) : SameFlagsBut (flagsWritten i) s t := by
  have key : ∀ u : State, exec i s = .next u → SameFlagsBut (flagsWritten i) s u → SameFlagsBut (flagsWritten i) s t := by
    intro u hu hflags
    obtain rfl := Host.Outcome.next.inj (hu.symm.trans h)
    exact hflags
  have unwritten : ∀ u : State, u.p = s.p → SameFlagsBut (flagsWritten i) s u :=
    fun u hp => sameFlagsBut_of_p s hp (sameFlagsBut_refl s _)
  cases i with
  | ldaImm imm => exact key _ (exec_ldaImm s imm) (sameFlagsBut_setZN_answerOk (by simp) _ _)
  | ldaZp zp => exact key _ (exec_ldaZp s zp) (sameFlagsBut_setZN_answerOk (by simp) _ _)
  | incZp zp => exact key _ (exec_incZp s zp) (sameFlagsBut_setZN_answerOk (by simp) _ _)
  | adcImm imm => exact key _ (exec_adcImm_eq_arith s imm) (sameFlagsBut_arith s _ _ _ _)
  | sbcImm imm => exact key _ (exec_sbcImm_eq_arith s imm) (sameFlagsBut_arith s _ _ _ _)
  | cmpImm imm =>
    have hzn : SameFlagsBut [.c, .z, .n] s (s.setZN (cmpResult s.a imm)) :=
      sameFlagsBut_setZN s (by decide) (by decide) _ (sameFlagsBut_refl s _)
    have hc := sameFlagsBut_setFlag s (f := .c) (by decide) (cmpCarry s.a imm) hzn
    exact key _ (exec_cmpImm s imm) (sameFlagsBut_of_p s (State.answerOk_p _ _) hc)
  | sec =>
    have hc : SameFlagsBut [.c] s (s.setFlag .c true) := sameFlagsBut_setFlag s (by decide) true (sameFlagsBut_refl s _)
    exact key _ (exec_sec s) (sameFlagsBut_of_p s (State.answerOk_p _ _) hc)
  | staZp zp => exact key _ (exec_staZp s zp) (unwritten _ rfl)
  | staAbs addr =>
    obtain ⟨-, -, -, -, -, hp, -⟩ := s.storeDispatch_rest addr s.a
    exact key _ (exec_staAbs s addr) (unwritten _ hp)
  | bne rel =>
    cases hz : s.flag .z with
    | true => exact key _ (exec_bne_not_taken s rel hz) (unwritten _ rfl)
    | false => exact key _ (exec_bne_taken s rel hz) (unwritten _ rfl)
  | hlt => exact key _ (exec_hlt s) (unwritten _ rfl)

/-! ### Everything else an instruction does -/

/-- Where an instruction leaves PC, which is past its bytes when it begins (42_control.md R155). -/
def pcAfter (i : Instr) (s : State) : Addr :=
  match i with
  | .bne rel => if s.flag .z then s.pc else branchTarget s.pc rel
  | _ => s.pc

/-- The run state an instruction leaves (42_control.md R164). -/
def runAfter (i : Instr) (r : RunState) : RunState :=
  match i with
  | .hlt => .halted
  | _ => r

/-- `t` is `s` after the instruction, but for A and the flags the instruction writes. -/
structure Executed (i : Instr) (s t : State) : Prop where
  pc : t.pc = pcAfter i s
  run : t.run = runAfter i s.run
  index : SameIndexAndStack s t
  answer : t.answer = some (answerOf i (s.flag .z))
  trace : t.trace = s.trace ++ dataAccesses i s
  board : t.board = (s.performAll (dataAccesses i s)).board

theorem executed_staAbs (addr : Addr) (s : State) :
    Executed (.staAbs addr) s ((s.storeDispatch addr s.a).answerOk .staAbs) := by
  obtain ⟨hpc, hsp, -, hx, hy, -, hrun, -, -⟩ := s.storeDispatch_rest addr s.a
  refine ⟨hpc, hrun, ⟨hx, hy, hsp⟩, rfl, ?_, ?_⟩
  · rw [dataAccesses_staAbs, State.answerOk_trace, State.storeDispatch_eq, State.noteAccess_trace, State.perform_trace]
  · rw [dataAccesses_staAbs, State.storeDispatch_eq]
    rfl

/-- An instruction without data access whose meaning sets at most PC, A, P, the run state and the answer. -/
theorem executed_of_no_access {i : Instr} {s t : State} (hexec : exec i s = .next t)
    (haccess : dataAccesses i s = [])
    (ht : t = { s with pc := pcAfter i s, a := t.a, p := t.p, run := runAfter i s.run,
                       answer := some (answerOf i (s.flag .z)) }) :
    ∃ t, exec i s = .next t ∧ Executed i s t := by
  refine ⟨t, hexec, ?_⟩
  rw [ht]
  refine ⟨rfl, rfl, ⟨rfl, rfl, rfl⟩, rfl, ?_, ?_⟩
  · rw [haccess, List.append_nil]
  · rw [haccess]
    rfl

theorem executed_bne (rel : Byte) (s : State) : ∃ t, exec (.bne rel) s = .next t ∧ Executed (.bne rel) s t := by
  cases hz : s.flag .z with
  | true =>
    refine executed_of_no_access (exec_bne_not_taken s rel hz) rfl ?_
    simp [pcAfter, runAfter, answerOf, hz, State.answerOk]
  | false =>
    refine executed_of_no_access (exec_bne_taken s rel hz) rfl ?_
    simp [pcAfter, runAfter, answerOf, hz, State.answerOk, State.setPc]

/-- INC touches P, one byte of raw memory, the trace and the answer alone. -/
theorem incZp_eq (s : State) (ea : Addr) (v w : Byte) (e : CycEntry) :
    (((s.noteAccess (.memRead ea v)).busWrite ea w).setZN w).answerOk e =
      { s with
        p := (s.setZN w).p
        mem := s.mem.write ea w
        trace := s.trace ++ [.memRead ea v, .memWrite ea w]
        answer := some (.ok (Config.cyc e)) } := by
  simp [State.answerOk, State.setZN, State.setFlag, State.busWrite, State.writeByte, State.noteAccess]

theorem executed_incZp (zp : Byte) (s : State) : ∃ t, exec (.incZp zp) s = .next t ∧ Executed (.incZp zp) s t := by
  refine ⟨_, exec_incZp s zp, ?_⟩
  rw [incResult_eq, incZp_eq]
  exact ⟨rfl, rfl, ⟨rfl, rfl, rfl⟩, rfl, rfl, rfl⟩

/-- Every instruction completes, and does this. -/
theorem exists_executed (i : Instr) (s : State) : ∃ t, exec i s = .next t ∧ Executed i s t := by
  cases i with
  | staAbs addr => exact ⟨_, exec_staAbs s addr, executed_staAbs addr s⟩
  | bne rel => exact executed_bne rel s
  | incZp zp => exact executed_incZp zp s
  | ldaZp zp => exact ⟨_, exec_ldaZp s zp, rfl, rfl, ⟨rfl, rfl, rfl⟩, rfl, rfl, rfl⟩
  | staZp zp => exact ⟨_, exec_staZp s zp, rfl, rfl, ⟨rfl, rfl, rfl⟩, rfl, rfl, rfl⟩
  | ldaImm imm =>
    refine executed_of_no_access (exec_ldaImm s imm) rfl ?_
    simp [pcAfter, runAfter, answerOf, State.answerOk, State.setZN, State.setFlag, State.setA]
  | adcImm imm => exact executed_of_no_access (exec_adcImm_eq_arith s imm) rfl (State.arith_eq _ _ _ _ _)
  | sbcImm imm => exact executed_of_no_access (exec_sbcImm_eq_arith s imm) rfl (State.arith_eq _ _ _ _ _)
  | cmpImm imm =>
    refine executed_of_no_access (exec_cmpImm s imm) rfl ?_
    simp [pcAfter, runAfter, answerOf, State.answerOk, State.setZN, State.setFlag]
  | sec => exact executed_of_no_access (exec_sec s) rfl rfl
  | hlt => exact executed_of_no_access (exec_hlt s) rfl rfl

theorem exec_executed {i : Instr} {s t : State} (h : exec i s = .next t) : Executed i s t := by
  obtain ⟨u, hu, hdone⟩ := exists_executed i s
  obtain rfl := Host.Outcome.next.inj (hu.symm.trans h)
  exact hdone

/-- An instruction that is no branch, no halt and no absolute store leaves all that only those may change. -/
theorem Executed.sameElsewhere {i : Instr} {s t : State} (h : Executed i s t) (hpc : pcAfter i s = s.pc)
    (hrun : runAfter i s.run = s.run) (hdevices : SameDisplay s t ∧ SameIo s t) : SameElsewhere s t :=
  ⟨h.pc.trans hpc, h.run.trans hrun, h.index, hdevices⟩

end Sys2Proof.Machine
end

section
/-!
The rules over all instructions and all steps: flags, costs, outcomes, PC, the registers no instruction writes, and the
transactions of a step.
-/

namespace Sys2Proof.Machine

variable {s t : State}

/-! ### Facts about the tables -/

/-- No list of written flags names I, D or B (10_state.md R32). -/
theorem not_mem_flagsWritten (i : Instr) {f : Flag} (hf : f = .i ∨ f = .d ∨ f = .b) : f ∉ flagsWritten i := by
  cases i <;> rcases hf with rfl | rfl | rfl <;> simp [flagsWritten]

/-- Every entry of the cost table is positive (70_reset_and_hazards.md R205). -/
theorem cyc_pos (e : CycEntry) : 0 < Config.cyc e := by cases e <;> exact Nat.succ_pos _

/-- A taken branch costs more than one not taken (70_reset_and_hazards.md R205). -/
theorem cyc_bneNotTaken_lt : Config.cyc .bneNotTaken < Config.cyc .bneTaken :=
  Nat.lt_add_of_pos_right (Nat.succ_pos _)

/-- Only HLT answers without an entry of the cost table. -/
theorem answerOf_cases (i : Instr) (zeroSet : Bool) :
    (i = .hlt ∧ answerOf i zeroSet = .halted) ∨ (i ≠ .hlt ∧ ∃ e, answerOf i zeroSet = .ok (Config.cyc e)) := by
  cases i with
  | hlt => exact .inl ⟨rfl, rfl⟩
  | bne rel => cases zeroSet <;> exact .inr ⟨nofun, _, rfl⟩
  | _ => exact .inr ⟨nofun, _, rfl⟩

theorem runAfter_of_ne_hlt {i : Instr} (h : i ≠ .hlt) (r : RunState) : runAfter i r = r := by
  cases i with
  | hlt => exact absurd rfl h
  | _ => rfl

/-- The opcodes of the table differ (30_encoding.md R84). -/
theorem opcodeOf_inj {a b : Tag} : opcodeOf a = opcodeOf b ↔ a = b := by
  constructor
  · intro h
    have hdec : OpcodeDecode.tag a = .tag b := by rw [← decodeOpcode_opcodeOf a, h, decodeOpcode_opcodeOf]
    exact OpcodeDecode.tag.inj hdec
  · exact congrArg opcodeOf

/-- 0xFF is the opcode of HLT alone. -/
theorem opcodeOf_tag_eq_hlt_iff (i : Instr) : opcodeOf i.tag = 0xFF#8 ↔ i = .hlt := by
  refine (opcodeOf_inj (b := .halt)).trans ?_
  cases i <;> simp [Instr.tag]

/-- 0x8D is the opcode of the absolute store alone. -/
theorem opcodeOf_tag_eq_staAbs_iff (i : Instr) : opcodeOf i.tag = 0x8D#8 ↔ ∃ addr, i = .staAbs addr := by
  refine (opcodeOf_inj (b := .storeAccumulatorAbsolute)).trans ?_
  cases i <;> simp [Instr.tag]

/-- 0xD0 is the opcode of the branch alone. -/
theorem opcodeOf_tag_eq_bne_iff (i : Instr) : opcodeOf i.tag = 0xD0#8 ↔ ∃ rel, i = .bne rel := by
  refine (opcodeOf_inj (b := .branchIfNotEqual)).trans ?_
  cases i <;> simp [Instr.tag]

/-- An instruction other than a branch leaves PC past its bytes. -/
theorem pcAfter_of_not_taken {i : Instr} (h : ¬(opcodeOf i.tag = 0xD0#8 ∧ s.flag .z = false)) : pcAfter i s = s.pc := by
  cases i with
  | bne rel =>
    have hz : s.flag .z = true := by
      by_contra hclear
      exact h ⟨rfl, Bool.eq_false_iff.mpr hclear⟩
    exact if_pos hz
  | _ => rfl

/-- The target of a branch as an integer (42_control.md R155). -/
theorem toNat_branchTarget (next : Addr) (rel : Byte) :
    ((branchTarget next rel).toNat : Int) = ((next.toNat : Int) + rel.toInt) % 65536 := by
  have hrel : (sext16 rel).toInt = rel.toInt := BitVec.toInt_signExtend_of_le (by decide)
  have hcases := BitVec.toInt_eq_toNat_cond (sext16 rel)
  rw [branchTarget, BitVec.toNat_add]
  omega

/-- The operand of a branch read from the bytes at PC. -/
theorem codeByte_one_of_decode_bne {rel : Byte} {rest : List Byte} (h : decode s.codeWindow = .instr (.bne rel) rest) :
    s.codeByte 1 = rel := by
  have hbytes : s.codeWindow = 0xD0#8 :: rel :: rest := decode_eq_instr_iff.mp h
  exact (List.cons.inj (List.cons.inj hbytes).2).1

/-! ### What a step leaves and answers -/

/-- The instruction at PC, as a step executes it. -/
theorem executed_fetched {i : Instr} (h : exec i (s.fetched (encode i).length) = .next t) :
    Executed i (s.fetched (encode i).length) t :=
  exec_executed h

theorem step_sameIndexAndStack (h : step s = .next t) : SameIndexAndStack s t := by
  cases step_eq_next_iff.mp h with
  | executes hrun hdec hexec => exact (executed_fetched hexec).index
  | _ => exact ⟨rfl, rfl, rfl⟩

/-- A step writes no flag that no instruction writes, and not the reserved bit. -/
theorem step_restingFlags (h : step s = .next t) :
    t.flag .i = s.flag .i ∧ t.flag .d = s.flag .d ∧ t.flag .b = s.flag .b ∧ t.p.getLsbD 5 = s.p.getLsbD 5 := by
  cases step_eq_next_iff.mp h with
  | @executes i _ _ hrun hdec hexec =>
    obtain ⟨hothers, hreserved⟩ := exec_flags hexec
    exact ⟨hothers .i (not_mem_flagsWritten i (by simp)), hothers .d (not_mem_flagsWritten i (by simp)),
      hothers .b (not_mem_flagsWritten i (by simp)), hreserved⟩
  | _ => exact ⟨rfl, rfl, rfl, rfl⟩

/-! ### The transactions of a step -/

/-- The transactions of a step are fetches and the data accesses of the instruction it executes, if any. -/
theorem step_trace_cases (h : step s = .next t) :
    (∃ i rest, s.run = .running ∧ decode s.codeWindow = .instr i rest ∧
      t.trace = (s.fetched (encode i).length).trace ++ dataAccesses i s) ∨
    (s.run = .running ∧ opcodeLength (s.codeByte 0) = none ∧ t.trace = (s.fetched 1).trace) ∨
    (s.stopped ∧ t.trace = []) := by
  cases step_eq_next_iff.mp h with
  | @executes i rest _ hrun hdec hexec =>
    refine .inl ⟨i, rest, hrun, hdec, ?_⟩
    rw [(executed_fetched hexec).trace, dataAccesses_congr i (s := s.fetched _) (t := s) rfl fun _ => rfl]
  | fails hrun hlen => exact .inr (.inl ⟨hrun, hlen, rfl⟩)
  | staysHalted hrun => exact .inr (.inr ⟨.inl hrun, rfl⟩)
  | staysFaulted hrun => exact .inr (.inr ⟨.inr ⟨_, hrun⟩, rfl⟩)

/-- A transaction of a step that is no read is a data access of the instruction at PC. -/
theorem mem_dataAccesses_of_mem_trace (h : step s = .next t) {a : Access} (ha : a ∈ t.trace)
    (hread : ∀ k v, a ≠ .memRead k v) :
    ∃ i, s.run = .running ∧ s.codeByte 0 = opcodeOf i.tag ∧ a ∈ dataAccesses i s := by
  have hfetch : ∀ n, a ∉ (s.fetched n).trace := by
    intro n hmem
    obtain ⟨k, -, hk⟩ := List.mem_map.mp hmem
    exact hread _ _ hk.symm
  rcases step_trace_cases h with ⟨i, rest, hrun, hdec, htrace⟩ | ⟨-, -, htrace⟩ | ⟨-, htrace⟩
  · rw [htrace, List.mem_append] at ha
    exact ⟨i, hrun, codeByte_zero_of_decode hdec, ha.resolve_left (hfetch _)⟩
  · exact absurd (htrace ▸ ha) (hfetch _)
  · rw [htrace] at ha
    exact absurd ha List.not_mem_nil

/-- A step changes raw memory and the devices by its transactions alone. -/
theorem step_board (h : step s = .next t) : t.board = (s.performAll t.trace).board := by
  cases step_eq_next_iff.mp h with
  | @executes i rest _ hrun hdec hexec =>
    have hdone := executed_fetched hexec
    have hreads : s.performAll (s.fetched (encode i).length).trace = s := State.performAll_reads s _ _ _
    have hsame : (s.fetched (encode i).length).board = s.board := rfl
    rw [hdone.board, hdone.trace, State.performAll_append, hreads]
    exact State.board_performAll_congr hsame _
  | fails hrun hlen =>
    have hreads : s.performAll (s.fetched 1).trace = s := State.performAll_reads s _ _ _
    rw [State.raiseDecodeFailure_trace, hreads]
    rfl
  | staysHalted hrun => rfl
  | staysFaulted hrun => rfl

end Sys2Proof.Machine

namespace Sys2Proof

open Machine

/-- Settles O30: I, D and B are in no instruction's list. -/
theorem onlyDefinedFlagsAreWritten : Obligations.OnlyDefinedFlagsAreWritten := by
  intro i s
  obtain ⟨t, ht⟩ := exec_next s i
  obtain ⟨hothers, hreserved⟩ := exec_flags ht
  exact ⟨t, ht, ⟨hothers, hreserved⟩, hothers .i (not_mem_flagsWritten i (by simp)),
    hothers .d (not_mem_flagsWritten i (by simp)), hothers .b (not_mem_flagsWritten i (by simp))⟩

/-- Settles O31: the answer of every instruction is its entry, and the failing step answers no cost. -/
theorem cycleCostsFollowTheTable : Obligations.CycleCostsFollowTheTable := by
  refine ⟨cyc_pos, cyc_bneNotTaken_lt, fun i s => ?_, fun s hrun hlen => ?_⟩
  · obtain ⟨t, ht, hdone⟩ := exists_executed i s
    exact ⟨t, ht, hdone.answer⟩
  · rw [← s.codeByte_zero] at hlen
    exact ⟨_, step_of_opcodeLength_eq_none hrun hlen, by simp⟩

/-- Settles O10, by what the step does. -/
theorem stepAnswersOneOutcome : Obligations.StepAnswersOneOutcome := by
  intro s t h
  cases step_eq_next_iff.mp h with
  | @executes i _ _ hrun hdec hexec =>
    have hdone := executed_fetched hexec
    rcases answerOf_cases i ((s.fetched (encode i).length).flag .z) with ⟨rfl, hans⟩ | ⟨hi, e, hans⟩
    · exact .inr (.inl ⟨hdone.run, by rw [hdone.answer, hans]⟩)
    · refine .inl ⟨?_, e, by rw [hdone.answer, hans]⟩
      rw [hdone.run, runAfter_of_ne_hlt hi]
      exact hrun
  | fails hrun hlen => exact .inr (.inr ⟨_, rfl, rfl⟩)
  | staysHalted hrun => exact .inr (.inl ⟨hrun, rfl⟩)
  | staysFaulted hrun => exact .inr (.inr ⟨_, hrun, rfl⟩)

/-- Settles O11: an instruction keeps the machine running unless it is HLT, the one whose opcode is 0xFF, and a byte that is
no opcode latches itself. -/
theorem runStopsOnlyAtHaltOrIllegalByte : Obligations.RunStopsOnlyAtHaltOrIllegalByte := by
  intro s t hrun h
  rw [← s.codeByte_zero]
  cases step_eq_next_iff.mp h with
  | @executes i _ _ _ hdec hexec =>
    have hlegal : opcodeLength (s.codeByte 0) ≠ none := exists_decode_codeWindow_iff.mp ⟨_, _, hdec⟩
    have hnofault : ∀ b, ¬(b = s.codeByte 0 ∧ opcodeLength b = none) := by
      rintro _ ⟨rfl, hnone⟩
      exact hlegal hnone
    have hrunAfter : t.run = runAfter i .running := by
      rw [← hrun]
      exact (executed_fetched hexec).run
    have hff : s.codeByte 0 = 0xFF#8 ↔ i = .hlt := by rw [codeByte_zero_of_decode hdec, opcodeOf_tag_eq_hlt_iff]
    by_cases hi : i = .hlt
    · have hhalted : t.run = .halted := by rw [hrunAfter, hi, runAfter]
      exact ⟨iff_of_true hhalted (hff.mpr hi), fun b => iff_of_false (by simp [hhalted]) (hnofault b),
        iff_of_false (by simp [hhalted]) fun hgo => hgo.1 (hff.mpr hi), iff_of_true (.inr hhalted) hlegal⟩
    · have hgoes : t.run = .running := by rw [hrunAfter, runAfter_of_ne_hlt hi]
      have hne : s.codeByte 0 ≠ 0xFF#8 := mt hff.mp hi
      exact ⟨iff_of_false (by simp [hgoes]) hne, fun b => iff_of_false (by simp [hgoes]) (hnofault b),
        iff_of_true hgoes ⟨hne, hlegal⟩, iff_of_true (.inl hgoes) hlegal⟩
  | fails _ hlen =>
    have hne : s.codeByte 0 ≠ 0xFF#8 := by
      intro hff
      rw [hff] at hlen
      exact absurd hlen (by decide)
    have hfaulted : ((s.fetched 1).raiseDecodeFailure (s.codeByte 0)).run = .faulted (s.codeByte 0) := rfl
    refine ⟨iff_of_false nofun hne, fun b => ⟨fun hb => ?_, fun hb => ?_⟩, iff_of_false nofun fun hgo => hgo.2 hlen,
      iff_of_false (fun hsafe => hsafe.elim nofun nofun) fun hlegal => hlegal hlen⟩
    · obtain rfl : s.codeByte 0 = b := RunState.faulted.inj (hfaulted.symm.trans hb)
      exact ⟨rfl, hlen⟩
    · rw [hfaulted, hb.1]
  | staysHalted hhalted => exact absurd (hrun.symm.trans hhalted) nofun
  | staysFaulted hfaulted => exact absurd (hrun.symm.trans hfaulted) nofun

/-- Settles O33: PC stands past the fetched bytes, and of all instructions only a taken branch moves it from there. -/
theorem stepLeavesPcPastInstructionOrAtTarget : Obligations.StepLeavesPcPastInstructionOrAtTarget := by
  intro s t hrun h
  cases step_eq_next_iff.mp h with
  | @executes i _ _ _ hdec hexec =>
    have hpc := (executed_fetched hexec).pc
    have hlen := opcodeLength_of_decode hdec
    rw [codeByte_zero_of_decode hdec] at hlen ⊢
    refine ⟨?_, ?_, fun hnone => absurd (hnone.symm.trans hlen) nofun⟩
    · rintro ⟨hop, hz⟩
      obtain ⟨rel, rfl⟩ := (opcodeOf_tag_eq_bne_iff i).mp hop
      have htaken : t.pc = branchTarget (s.pc + 2#16) rel := by
        rw [hpc]
        exact if_neg (Bool.eq_false_iff.mp hz)
      rw [htaken, codeByte_one_of_decode_bne hdec, toNat_branchTarget, BitVec.toNat_add]
      simp only [BitVec.reduceToNat]
      omega
    · intro n hn htaken
      obtain rfl : operandBytes i.tag + 1 = n := Option.some.inj (hlen.symm.trans hn)
      have hpast : t.pc = s.pc + BitVec.ofNat 16 (encode i).length :=
        hpc.trans (pcAfter_of_not_taken (s := s.fetched (encode i).length) htaken)
      rw [hpast, length_encode, BitVec.toNat_add, BitVec.toNat_ofNat]
      omega
  | fails _ hlen =>
    refine ⟨fun ⟨hop, _⟩ => ?_, fun n hn => absurd (hlen.symm.trans hn) nofun, fun _ => ?_⟩
    · rw [hop] at hlen
      exact absurd hlen (by decide)
    · rw [State.raiseDecodeFailure_pc, State.fetched_pc, BitVec.toNat_add]
      rfl
  | staysHalted hhalted => exact absurd (hrun.symm.trans hhalted) nofun
  | staysFaulted hfaulted => exact absurd (hrun.symm.trans hfaulted) nofun

/-- Settles O34: an instruction writes none of the three, and neither does a failing or a stopped machine's step. -/
theorem stepNeverChangesIndexOrStackRegisters : Obligations.StepNeverChangesIndexOrStackRegisters :=
  fun _ _ => step_sameIndexAndStack

/-- Settles O35: the fetches note the reads of the instruction's bytes, and its execution appends its data accesses. -/
theorem stepMakesTheListedAccesses : Obligations.StepMakesTheListedAccesses := by
  intro s t hrun h
  rcases step_trace_cases h with ⟨i, rest, -, hdec, htrace⟩ | ⟨-, hlen, htrace⟩ | ⟨hstopped, -⟩
  · refine ⟨fun i' rest' hdec' => ?_, fun hlen => ?_⟩
    · obtain ⟨rfl, -⟩ := DecodeResult.instr.inj (hdec.symm.trans hdec')
      exact htrace
    · rw [← s.codeByte_zero, opcodeLength_of_decode hdec] at hlen
      exact absurd hlen nofun
  · refine ⟨fun i rest hdec => absurd (hlen.symm.trans (opcodeLength_of_decode hdec)) nofun, fun _ => ?_⟩
    rw [htrace]
    simp [State.fetched]
  · rcases hstopped with hhalted | ⟨b, hfaulted⟩
    · exact absurd (hrun.symm.trans hhalted) nofun
    · exact absurd (hrun.symm.trans hfaulted) nofun

end Sys2Proof
end

section
/-!
What the transactions of a step do to raw memory and to the devices (spec 20_memory.md R57 to R61, 60_exceptions.md R180 to
R188): each rule is proved of one transaction, then of a list of them, then read off the trace of a step.
-/

namespace Sys2Proof.Machine

variable {s t : State}

/-! ### Which transactions a step makes -/

/-- A write of raw memory goes round the device windows, and above page zero only by an absolute store. -/
theorem memWrite_mem_dataAccesses {i : Instr} {w : Addr} {v : Byte} (h : Access.memWrite w v ∈ dataAccesses i s) :
    (w.toNat < 0x4000 ∨ 0x6000 ≤ w.toNat) ∧ ((∀ addr, i ≠ .staAbs addr) → w.toNat < 256) := by
  have zeroPage : ∀ zp : Byte, (zpAddr zp).toNat < 256 := fun zp => toNat_zpAddr zp ▸ zp.isLt
  cases i with
  | staZp zp =>
    obtain ⟨rfl, -⟩ : w = zpAddr zp ∧ v = s.a := by simpa [dataAccesses, zpAddr, zext16] using h
    exact ⟨.inl ((zeroPage zp).trans (by decide)), fun _ => zeroPage zp⟩
  | incZp zp =>
    obtain ⟨rfl, -⟩ : w = zpAddr zp ∧ v = s.readByte (zpAddr zp) + 1 := by simpa [dataAccesses, zpAddr, zext16] using h
    exact ⟨.inl ((zeroPage zp).trans (by decide)), fun _ => zeroPage zp⟩
  | staAbs addr =>
    rw [dataAccesses_staAbs, List.mem_singleton, storeAccess] at h
    refine ⟨?_, fun hno => absurd rfl (hno addr)⟩
    rcases storeTarget_cases addr with ⟨-, -, ht⟩ | ⟨-, -, ht⟩ | ⟨hout, ht⟩
    · exact nomatch ht ▸ h
    · exact nomatch ht ▸ h
    · rw [ht] at h
      obtain ⟨rfl, -⟩ := Access.memWrite.inj h
      exact hout
  | _ => simp [dataAccesses] at h

/-- The transactions that reach raw memory alone. -/
def Access.raw : Access → Prop
  | .memRead _ _ | .memWrite _ _ => True
  | .dispWrite _ _ | .portWrite _ _ => False

/-- Only an absolute store reaches a device. -/
theorem raw_of_mem_dataAccesses {i : Instr} (hi : ∀ addr, i ≠ .staAbs addr) {a : Access} (h : a ∈ dataAccesses i s) :
    a.raw := by
  cases i with
  | staAbs addr => exact absurd rfl (hi addr)
  | ldaZp zp | staZp zp =>
    obtain rfl := List.mem_singleton.mp h
    trivial
  | incZp zp =>
    rcases List.mem_cons.mp h with rfl | h
    · trivial
    · obtain rfl := List.mem_singleton.mp h
      trivial
  | _ => exact absurd h List.not_mem_nil

theorem raw_of_mem_trace (h : step s = .next t) (hop : s.run = .running → s.codeByte 0 ≠ 0x8D#8) {a : Access}
    (ha : a ∈ t.trace) : a.raw := by
  by_contra hdevice
  have hread : ∀ k v, a ≠ .memRead k v := by
    rintro k v rfl
    exact hdevice trivial
  obtain ⟨i, hrun, hcode, hmem⟩ := mem_dataAccesses_of_mem_trace h ha hread
  refine hdevice (raw_of_mem_dataAccesses (fun addr hi => hop hrun ?_) hmem)
  rw [hcode, opcodeOf_tag_eq_staAbs_iff]
  exact ⟨addr, hi⟩

/-! ### Raw memory -/

theorem State.dispWrite_mem (s : State) (off : Nat) (v : Byte) : (s.dispWrite off v).mem = s.mem := by
  rw [s.dispWrite_eq off v]

theorem State.dispWrite_readByte (s : State) (off : Nat) (v : Byte) (k : Addr) :
    (s.dispWrite off v).readByte k = s.readByte k := by
  rw [State.readByte, s.dispWrite_mem, State.readByte]

/-- A byte that no transaction writes reads as before. -/
theorem readByte_performAll {k : Addr} {l : List Access} (h : ∀ v, Access.memWrite k v ∉ l) :
    (s.performAll l).readByte k = s.readByte k := by
  induction l generalizing s with
  | nil => rfl
  | cons a rest ih =>
    have hrest := ih (s := s.perform a) fun v hv => h v (List.mem_cons_of_mem _ hv)
    refine hrest.trans ?_
    cases a with
    | memRead w v => rfl
    | portWrite p v => rfl
    | dispWrite off v => exact s.dispWrite_readByte off.toNat v k
    | memWrite w v =>
      have hne : k ≠ w := by
        rintro rfl
        exact h v List.mem_cons_self
      exact s.readByte_writeByte_other v hne

theorem step_readByte (h : step s = .next t) {k : Addr} (hk : ∀ v, Access.memWrite k v ∉ t.trace) :
    t.readByte k = s.readByte k := by
  have hmem : t.mem = (s.performAll t.trace).mem := congrArg Board.mem (step_board h)
  rw [State.readByte, hmem]
  exact readByte_performAll hk

/-! ### The devices -/

/-- Transactions with raw memory leave the devices. -/
theorem devices_performAll {l : List Access} (h : ∀ a ∈ l, a.raw) :
    SameDisplay s (s.performAll l) ∧ SameIo s (s.performAll l) := by
  induction l generalizing s with
  | nil => exact ⟨⟨rfl, rfl⟩, rfl, rfl, rfl, rfl⟩
  | cons a rest ih =>
    have hrest := ih (s := s.perform a) fun b hb => h b (List.mem_cons_of_mem _ hb)
    have ha : a.raw := h a List.mem_cons_self
    cases a with
    | memRead w v => exact hrest
    | memWrite w v => exact hrest
    | dispWrite off v => exact ha.elim
    | portWrite p v => exact ha.elim

/-- The dirty flag after transactions: set before, or set by a display write in range (60_exceptions.md R182). -/
theorem dirty_performAll_iff {l : List Access} :
    (s.performAll l).dirty = true ↔
      (s.dirty = true ∨ ∃ off v, Access.dispWrite off v ∈ l ∧ off.toNat < Config.dispCells) := by
  induction l generalizing s with
  | nil => simp [State.performAll]
  | cons a rest ih =>
    rw [State.performAll, List.foldl_cons, ← State.performAll, ih]
    cases a with
    | memRead w v => simp [State.perform]
    | memWrite w v => simp [State.perform]
    | portWrite p v => simp [State.perform]
    | dispWrite off v =>
      rcases s.dispWrite_cases off.toNat v with ⟨hin, heq⟩ | ⟨hout, heq⟩
      · simp only [State.perform, heq, true_or, true_iff]
        exact .inr ⟨off, v, List.mem_cons_self, hin⟩
      · have hrest : ∀ off' v',
            Access.dispWrite off' v' ∈ Access.dispWrite off v :: rest ∧ off'.toNat < Config.dispCells ↔
              Access.dispWrite off' v' ∈ rest ∧ off'.toNat < Config.dispCells := by
          intro off' v'
          refine and_congr_left fun hin => ⟨fun hmem => ?_, List.mem_cons_of_mem _⟩
          refine (List.mem_cons.mp hmem).resolve_left fun he => hout ?_
          rwa [← (Access.dispWrite.inj he).1]
        simp only [State.perform, heq, hrest]

/-- A 12-bit offset reaches no cell from 4096 up (60_exceptions.md R181). -/
theorem dispRead_performAll {k : Nat} (hk : 4096 ≤ k) {l : List Access} :
    (s.performAll l).disp.read k = s.disp.read k := by
  induction l generalizing s with
  | nil => rfl
  | cons a rest ih =>
    refine (ih (s := s.perform a)).trans ?_
    cases a with
    | dispWrite off v =>
      rcases s.dispWrite_cases off.toNat v with ⟨-, heq⟩ | ⟨-, heq⟩
      · rw [State.perform, heq]
        have hne : k ≠ off.toNat := fun he => absurd off.isLt (by omega)
        exact DispBuffer.read_write_other _ v hne
      · rw [State.perform, heq]
    | _ => rfl

/-- The port write of a transaction, if it is one. -/
def Access.portWrite? : Access → Option (Byte × Byte)
  | .portWrite p v => some (p, v)
  | _ => none

theorem Access.portWrite?_eq_some_iff {a : Access} {w : Byte × Byte} :
    a.portWrite? = some w ↔ a = .portWrite w.1 w.2 := by
  cases a with
  | portWrite p v =>
    constructor
    · intro h
      obtain rfl := Option.some.inj h
      rfl
    · intro h
      obtain ⟨rfl, rfl⟩ := Access.portWrite.inj h
      rfl
  | _ => simp [Access.portWrite?]

theorem State.dispWrite_io (s : State) (off : Nat) (v : Byte) : SameIo s (s.dispWrite off v) := by
  rw [s.dispWrite_eq off v]
  exact ⟨rfl, rfl, rfl, rfl⟩

/-- Transactions log exactly their port writes, emit what those emit, and leave the input queue (60_exceptions.md R185). -/
theorem io_performAll (l : List Access) :
    (s.performAll l).iolog = s.iolog ++ l.filterMap Access.portWrite? ∧
    (s.performAll l).events = s.events ++ (l.filterMap Access.portWrite?).flatMap (fun w => portEvents w.1 w.2) ∧
    (s.performAll l).inq = s.inq := by
  induction l generalizing s with
  | nil => simp [State.performAll]
  | cons a rest ih =>
    obtain ⟨hlog, hevents, hinq⟩ := ih (s := s.perform a)
    rw [State.performAll, List.foldl_cons, ← State.performAll, hlog, hevents, hinq]
    cases a with
    | memRead w v => exact ⟨rfl, rfl, rfl⟩
    | memWrite w v => exact ⟨rfl, rfl, rfl⟩
    | dispWrite off v =>
      obtain ⟨-, hlog', hinq', hevents'⟩ := s.dispWrite_io off.toNat v
      rw [State.perform, hlog', hevents', hinq']
      exact ⟨rfl, rfl, rfl⟩
    | portWrite p v => simp [State.perform, Access.portWrite?]

/-- An instruction makes at most one port write. -/
theorem length_portWrites_dataAccesses (i : Instr) (s : State) :
    ((dataAccesses i s).filterMap Access.portWrite?).length ≤ 1 := by
  cases i with
  | staAbs addr =>
    rw [dataAccesses_staAbs]
    exact List.length_filterMap_le _ _
  | _ => exact Nat.zero_le _

/-- So does a step: its fetches are reads. -/
theorem length_portWrites_trace (h : step s = .next t) : (t.trace.filterMap Access.portWrite?).length ≤ 1 := by
  have hfetch : ∀ n, (s.fetched n).trace.filterMap Access.portWrite? = [] := by
    intro n
    simp [State.fetched, List.filterMap_eq_nil_iff, Access.portWrite?]
  rcases step_trace_cases h with ⟨i, rest, -, -, htrace⟩ | ⟨-, -, htrace⟩ | ⟨-, htrace⟩
  · rw [htrace, List.filterMap_append, hfetch, List.nil_append]
    exact length_portWrites_dataAccesses i s
  · rw [htrace, hfetch]
    exact Nat.zero_le _
  · rw [htrace]
    exact Nat.zero_le _

/-- What a port emits, by its number (60_exceptions.md R186). -/
theorem portEvents_eq (p v : Byte) :
    portEvents p v =
      if p.toNat = 0 then [OutEvent.numericOut v] else if p.toNat = 1 then [OutEvent.charOut v] else [] := by
  simp only [portEvents, BitVec.toNat_eq, BitVec.reduceToNat]

/-! ### The dispatched store -/

/-- A store to the I/O window is the port write of the address's low 8 bits (20_memory.md R61). -/
theorem storeDispatch_port (s : State) (p v : Byte) {k : Nat} (hk : k < 16) :
    s.storeDispatch (BitVec.ofNat 16 (0x5000 + 0x100 * k + p.toNat)) v =
      (s.portWrite p v).noteAccess (.portWrite p v) := by
  have hp : p.toNat < 256 := p.isLt
  have hnum : (BitVec.ofNat 16 (0x5000 + 0x100 * k + p.toNat)).toNat = 0x5000 + 0x100 * k + p.toNat := by
    rw [BitVec.toNat_ofNat]
    omega
  have hport : BitVec.ofNat 8 (0x5000 + 0x100 * k + p.toNat - 0x5000) = p := by
    apply BitVec.eq_of_toNat_eq
    rw [BitVec.toNat_ofNat]
    omega
  rcases s.storeDispatch_cases (BitVec.ofNat 16 (0x5000 + 0x100 * k + p.toNat)) v with
    ⟨-, hhigh, -⟩ | ⟨-, -, heq⟩ | ⟨hout, -⟩
  · omega
  · rw [heq, hnum, hport]
  · omega

/-- What a dispatched store leaves of raw memory: the byte written outside the windows, every byte inside (R58). -/
theorem readByte_storeDispatch (s : State) (addr : Addr) (v : Byte) :
    (addr.toNat < 0x4000 ∨ 0x6000 ≤ addr.toNat → (s.storeDispatch addr v).readByte addr = v) ∧
    (0x4000 ≤ addr.toNat ∧ addr.toNat < 0x6000 → SameMemory s (s.storeDispatch addr v)) := by
  rcases s.storeDispatch_cases addr v with ⟨hlow, hhigh, heq⟩ | ⟨hlow, hhigh, heq⟩ | ⟨hout, heq⟩
  · rw [heq]
    refine ⟨fun _ => by omega, fun _ k => ?_⟩
    rw [State.noteAccess_readByte, s.dispWrite_readByte]
  · rw [heq]
    refine ⟨fun _ => by omega, fun _ k => ?_⟩
    rw [State.noteAccess_readByte, State.portWrite_readByte]
  · rw [heq]
    exact ⟨fun _ => s.readByte_writeByte_same addr v, fun _ => by omega⟩

/-- A fetch depends on PC and raw memory alone. -/
theorem fetchByte_of_mem {u : State} (hmem : u.mem = t.mem) : u.fetchByte.1 = t.readByte u.pc := by
  rw [State.fetchByte_fst, State.readByte, hmem, State.readByte]

end Sys2Proof.Machine

namespace Sys2Proof

open Machine

/-- Settles O36: the writes of raw memory in a trace are data accesses, and those avoid the windows. -/
theorem rawMemoryUnderTheWindowsIsNeverWritten : Obligations.RawMemoryUnderTheWindowsIsNeverWritten := by
  intro s t a h
  have hwrite : ∀ v, Access.memWrite a v ∈ t.trace →
      (a.toNat < 0x4000 ∨ 0x6000 ≤ a.toNat) ∧ (s.codeByte 0 ≠ 0x8D#8 → a.toNat < 256) := by
    intro v hv
    obtain ⟨i, -, hcode, hmem⟩ := mem_dataAccesses_of_mem_trace h hv nofun
    obtain ⟨hout, hlow⟩ := memWrite_mem_dataAccesses hmem
    refine ⟨hout, fun hop => hlow fun addr hi => hop ?_⟩
    rw [hcode, opcodeOf_tag_eq_staAbs_iff]
    exact ⟨addr, hi⟩
  constructor
  · intro hwindow
    refine step_readByte h fun v hv => ?_
    obtain ⟨hout, -⟩ := hwrite v hv
    omega
  · intro hhigh hop
    refine step_readByte h fun v hv => ?_
    obtain ⟨-, hlow⟩ := hwrite v hv
    have hpage := hlow hop
    omega

/-- Settles O37: without an absolute store every transaction is with raw memory. -/
theorem onlyAbsoluteStoreReachesDevices : Obligations.OnlyAbsoluteStoreReachesDevices := by
  intro s t h hop
  obtain ⟨⟨hdisp, hdirty⟩, hports, hlog, hinq, hevents⟩ :=
    devices_performAll (s := s) (l := t.trace) fun a ha => raw_of_mem_trace h hop ha
  have hboard := step_board h
  exact ⟨⟨(congrArg Board.disp hboard).trans hdisp, (congrArg Board.dirty hboard).trans hdirty⟩,
    (congrArg Board.ports hboard).trans hports, (congrArg Board.iolog hboard).trans hlog,
    (congrArg Board.inq hboard).trans hinq, (congrArg Board.events hboard).trans hevents⟩

/-- Settles O38: the flag follows the step's transactions, and no host operation writes the display. -/
theorem dirtyFlagRecordsInRangeDisplayWrites : Obligations.DirtyFlagRecordsInRangeDisplayWrites := by
  refine ⟨fun s t h => ?_, fun s => ⟨rfl, fun _ _ => rfl, fun bytes start => ?_, fun p => ?_, fun _ => rfl, rfl, rfl, rfl,
    rfl⟩⟩
  · have hdirty : t.dirty = (s.performAll t.trace).dirty := congrArg Board.dirty (step_board h)
    rw [hdirty, dirty_performAll_iff]
  · rcases s.loadProgram_cases bytes start with ⟨-, heq⟩ | ⟨-, heq⟩
    · rw [heq, s.storeBytes_eq start bytes]
    · rw [heq]
  · rcases s.readPort_cases p with ⟨b, rest, -, heq⟩ | ⟨-, heq⟩ <;> rw [heq]

/-- Settles O39: a display write carries a 12-bit offset. -/
theorem displayCellsFrom4096AreOutOfReach : Obligations.DisplayCellsFrom4096AreOutOfReach := by
  intro s t k h hk
  have hdisp : t.disp = (s.performAll t.trace).disp := congrArg Board.disp (step_board h)
  rw [hdisp, dispRead_performAll hk]

/-- Settles O40: the writes are the port writes of the trace, in its order. -/
theorem writeLogAndEventsGrowByPortWrites : Obligations.WriteLogAndEventsGrowByPortWrites := by
  intro s t h
  obtain ⟨hlog, hevents, hinq⟩ := io_performAll (s := s) t.trace
  have hboard := step_board h
  refine ⟨t.trace.filterMap Access.portWrite?, length_portWrites_trace h, (congrArg Board.iolog hboard).trans hlog,
    fun w => ?_, ?_, (congrArg Board.inq hboard).trans hinq⟩
  · simp [List.mem_filterMap, Access.portWrite?_eq_some_iff]
  · simp only [← portEvents_eq]
    exact (congrArg Board.events hboard).trans hevents

/-- Settles O41: the 256 addresses of a mirror hold the 256 ports, and 16 mirrors fill the window. -/
theorem portsAreMirroredSixteenTimes : Obligations.PortsAreMirroredSixteenTimes :=
  fun s p v _ hk => storeDispatch_port s p v hk

/-- Settles O42: a fetch reads the raw memory the store left. -/
theorem rawStoreIsSeenByTheNextFetch : Obligations.RawStoreIsSeenByTheNextFetch := by
  refine ⟨fun s addr => ⟨_, exec_staAbs s addr, fun u hmem hpc => ?_⟩,
    fun s zp => ⟨_, exec_staZp s zp, fun u hmem hpc => ?_⟩, fun s zp => ⟨_, exec_incZp s zp, fun u hmem hpc => ?_⟩⟩
  · obtain ⟨hraw, hwindow⟩ := readByte_storeDispatch s addr s.a
    rw [fetchByte_of_mem hmem, hpc]
    exact ⟨hraw, fun hin => hwindow hin addr⟩
  · rw [fetchByte_of_mem hmem, hpc, State.answerOk_readByte, State.readByte_busWrite, if_pos rfl]
  · rw [fetchByte_of_mem hmem, hpc, State.answerOk_readByte, State.setZN_readByte, State.readByte_busWrite, if_pos rfl,
      incResult_toNat]

end Sys2Proof
end

section
/-!
The invariant: its part about raw memory and the devices is kept by every transaction, so by every step and host operation;
its part about the registers by every step, because no instruction writes them (spec 10_state.md R22, R32, R33, R36).
-/

namespace Sys2Proof.Machine

variable {s t : State}

/-! ### The board's part -/

/-- What the invariant says of raw memory and the devices. -/
def State.BoardOk (s : State) : Prop :=
  s.Canonical ∧ s.IoFollowsLog ∧ (s.dirty = false → s.disp.cells = [])

theorem State.BoardOk.congr (h : s.board = t.board) (hs : s.BoardOk) : t.BoardOk := by
  simp only [State.board, Board.mk.injEq] at h
  obtain ⟨hmem, hdisp, hdirty, hports, hlog, -, hevents⟩ := h
  simpa only [State.BoardOk, State.Canonical, State.IoFollowsLog, hmem, hdisp, hdirty, hports, hlog, hevents] using hs

/-- The latest entry of a log decides what its port holds (60_exceptions.md R185). -/
theorem lastWritten_append_singleton (log : List (Byte × Byte)) (w : Byte × Byte) (q : Byte) :
    lastWritten (log ++ [w]) q = if w.1 = q then some w.2 else lastWritten log q := by
  induction log with
  | nil => simp [lastWritten]
  | cons e rest ih =>
    simp only [List.cons_append, lastWritten, ih]
    split <;> simp

theorem State.IoFollowsLog.portWrite (h : s.IoFollowsLog) (p v : Byte) : (s.portWrite p v).IoFollowsLog := by
  obtain ⟨hports, hevents⟩ := h
  constructor
  · intro q
    rw [State.portWrite_ports, State.portWrite_iolog, lastWritten_append_singleton]
    by_cases hq : q = p
    · subst hq
      simp
    · rw [PortMap.lookup_set_other _ v hq, if_neg (Ne.symm hq), hports]
  · simp [hevents]

/-- Every transaction keeps the board's part. -/
theorem State.BoardOk.perform (h : s.BoardOk) (a : Access) : (s.perform a).BoardOk := by
  obtain ⟨⟨hmem, hdisp, hports⟩, hio, hclean⟩ := h
  cases a with
  | memRead w v => exact ⟨⟨hmem, hdisp, hports⟩, hio, hclean⟩
  | memWrite w v => exact ⟨⟨Memory.wf_write w v hmem, hdisp, hports⟩, hio, hclean⟩
  | portWrite p v => exact ⟨⟨hmem, hdisp, PortMap.wf_set p v hports⟩, hio.portWrite p v, hclean⟩
  | dispWrite off v =>
    rcases s.dispWrite_cases off.toNat v with ⟨hin, heq⟩ | ⟨-, heq⟩
    · rw [State.perform, heq]
      exact ⟨⟨hmem, DispBuffer.wf_write v hin hdisp, hports⟩, hio, nofun⟩
    · rw [State.perform, heq]
      exact ⟨⟨hmem, hdisp, hports⟩, hio, hclean⟩

theorem State.BoardOk.performAll (h : s.BoardOk) (l : List Access) : (s.performAll l).BoardOk := by
  induction l generalizing s with
  | nil => exact h
  | cons a rest ih => exact ih (h.perform a)

/-! ### The whole invariant -/

theorem State.Inv.boardOk (h : s.Inv) : s.BoardOk := by
  obtain ⟨hcanonical, -, hio, hclean, -⟩ := h
  exact ⟨hcanonical, hio, hclean⟩

theorem inv_of_boardOk (hboard : s.BoardOk) (hregs : s.RegistersAtRest)
    (hlatch : ∀ b, s.run = .faulted b → opcodeLength b = none) : s.Inv := by
  obtain ⟨hcanonical, hio, hclean⟩ := hboard
  exact ⟨hcanonical, hregs, hio, hclean, hlatch⟩

/-- Raw memory and the input queue may change, as long as memory stays in canonical form. -/
theorem State.Inv.with_mem_inq (h : s.Inv) {m : Memory} (hm : m.wf = true) (q : List Byte) :
    ({ s with mem := m, inq := q } : State).Inv := by
  obtain ⟨⟨-, hdisp, hports⟩, hregs, hio, hclean, hlatch⟩ := h
  exact ⟨⟨hm, hdisp, hports⟩, hregs, hio, hclean, hlatch⟩

theorem State.Inv.mem_wf (h : s.Inv) : s.mem.wf = true := by
  obtain ⟨⟨hmem, -⟩, -⟩ := h
  exact hmem

/-- A step keeps what the invariant says of the registers. -/
theorem step_registersAtRest (h : step s = .next t) (hs : s.RegistersAtRest) : t.RegistersAtRest := by
  obtain ⟨hx, hy, hrest⟩ := hs
  obtain ⟨hx', hy', hsp'⟩ := step_sameIndexAndStack h
  obtain ⟨hi', hd', hb', hp'⟩ := step_restingFlags h
  have hrun : s.run ≠ .notReset := fun hrun => step_notReset_ne_next hrun t h
  obtain ⟨hsp, hp, hi, hd, hb⟩ := hrest hrun
  exact ⟨hx'.trans hx, hy'.trans hy, fun _ => ⟨hsp'.trans hsp, hp'.trans hp, hi'.trans hi, hd'.trans hd, hb'.trans hb⟩⟩

/-- A step latches only a byte that is no opcode. -/
theorem step_latched (h : step s = .next t) (hs : ∀ b, s.run = .faulted b → opcodeLength b = none) :
    ∀ b, t.run = .faulted b → opcodeLength b = none := by
  intro b hb
  cases step_eq_next_iff.mp h with
  | @executes i _ _ hrun hdec hexec =>
    have hrunAfter : t.run = runAfter i .running := by
      rw [← hrun]
      exact (executed_fetched hexec).run
    cases i <;> exact nomatch hrunAfter.symm.trans hb
  | fails _ hlen =>
    obtain rfl := RunState.faulted.inj hb
    exact hlen
  | staysHalted hrun => exact hs b hb
  | staysFaulted hrun => exact hs b hb

/-- Reset clears every flag (10_state.md R41). -/
theorem readFlag_reset (f : Flag) : readFlag 0x20#8 f = false := by cases f <;> decide

theorem reserved_reset : (0x20#8 : Byte).getLsbD 5 = true := by decide

/-- Reset gives the registers of 10_state.md R41 and keeps X and Y. -/
theorem State.RegistersAtRest.applyReset (h : s.RegistersAtRest) : s.applyReset.RegistersAtRest := by
  obtain ⟨hx, hy, -⟩ := h
  exact ⟨hx, hy, fun _ => ⟨rfl, reserved_reset, readFlag_reset .i, readFlag_reset .d, readFlag_reset .b⟩⟩

/-! ### The status byte -/

/-- Bit `k` of a byte is the remainder of the bits from `k` up. -/
theorem toNat_getLsbD_add (p : Byte) (k : Nat) :
    (p.getLsbD k).toNat + 2 * (p.toNat / 2 ^ (k + 1)) = p.toNat / 2 ^ k := by
  have hbit : (p.getLsbD k).toNat = p.toNat / 2 ^ k % 2 := Nat.toNat_testBit p.toNat k
  rw [hbit, Nat.pow_succ, ← Nat.div_div_eq_div_mul]
  exact Nat.mod_add_div _ 2

/-- A status byte is the sum of its flags and the reserved bit (10_state.md R27). -/
theorem toNat_status (p : Byte) :
    p.toNat = 128 * (readFlag p .n).toNat + 64 * (readFlag p .v).toNat + 32 * (p.getLsbD 5).toNat +
      16 * (readFlag p .b).toNat + 8 * (readFlag p .d).toNat + 4 * (readFlag p .i).toNat + 2 * (readFlag p .z).toNat +
      (readFlag p .c).toNat := by
  obtain ⟨f, hf⟩ : ∃ f : Nat → Nat, ∀ k, f k = p.toNat / 2 ^ k := ⟨_, fun _ => rfl⟩
  have hbit : ∀ k, (p.getLsbD k).toNat + 2 * f (k + 1) = f k := fun k => by rw [hf, hf, toNat_getLsbD_add]
  have hlow : f 0 = p.toNat := by rw [hf, Nat.pow_zero, Nat.div_one]
  have hhigh : f 8 = 0 := by rw [hf, Nat.div_eq_of_lt p.isLt]
  have h0 : (p.getLsbD 0).toNat + 2 * f 1 = f 0 := hbit 0
  have h1 : (p.getLsbD 1).toNat + 2 * f 2 = f 1 := hbit 1
  have h2 : (p.getLsbD 2).toNat + 2 * f 3 = f 2 := hbit 2
  have h3 : (p.getLsbD 3).toNat + 2 * f 4 = f 3 := hbit 3
  have h4 : (p.getLsbD 4).toNat + 2 * f 5 = f 4 := hbit 4
  have h5 : (p.getLsbD 5).toNat + 2 * f 6 = f 5 := hbit 5
  have h6 : (p.getLsbD 6).toNat + 2 * f 7 = f 6 := hbit 6
  have h7 : (p.getLsbD 7).toNat + 2 * f 8 = f 7 := hbit 7
  simp only [readFlag, flagBit]
  omega

end Sys2Proof.Machine

namespace Sys2Proof

open Machine

/-- Settles O57: before reset the invariant asks nothing of SP and P, and at reset they hold their reset values. -/
theorem invariantHoldsAtPowerOnAndReset : Obligations.InvariantHoldsAtPowerOnAndReset :=
  ⟨⟨⟨rfl, rfl, rfl⟩, ⟨rfl, rfl, fun h => absurd rfl h⟩, ⟨fun _ => rfl, rfl⟩, fun _ => rfl, nofun⟩,
    ⟨⟨rfl, rfl, rfl⟩, ⟨rfl, rfl, fun _ => ⟨rfl, reserved_reset, readFlag_reset .i, readFlag_reset .d, readFlag_reset .b⟩⟩,
      ⟨fun _ => rfl, rfl⟩, fun _ => rfl, nofun⟩⟩

/-- Settles O58: the board's part follows the step's transactions, the registers' part the rules over all steps. -/
theorem invariantIsKeptByEveryStep : Obligations.InvariantIsKeptByEveryStep := by
  intro s t hinv hstep
  have hboard : t.BoardOk := (hinv.boardOk.performAll t.trace).congr (step_board hstep).symm
  obtain ⟨-, hregs, -, -, hlatch⟩ := hinv
  exact inv_of_boardOk hboard (step_registersAtRest hstep hregs) (step_latched hstep hlatch)

/-- Settles O59: the host's operations write raw memory or the input queue, and reset writes the registers it resets. -/
theorem invariantIsKeptByHostOperations : Obligations.InvariantIsKeptByHostOperations := by
  intro s hinv
  refine ⟨?_, fun a v => ?_, fun bytes start => ?_, fun p => ?_, fun b => ?_, hinv⟩
  · obtain ⟨hcanonical, hregs, hio, hclean, -⟩ := hinv
    exact ⟨hcanonical, hregs.applyReset, hio, hclean, nofun⟩
  · exact hinv.with_mem_inq (s.writeWord_mem_wf a v hinv.mem_wf) s.inq
  · have hwf := s.loadProgram_mem_wf bytes start hinv.mem_wf
    rcases s.loadProgram_cases bytes start with ⟨-, heq⟩ | ⟨-, heq⟩
    · rw [heq] at hwf ⊢
      rw [s.storeBytes_eq start bytes]
      exact hinv.with_mem_inq hwf s.inq
    · rw [heq]
      exact hinv
  · rcases s.readPort_cases p with ⟨b, rest, -, heq⟩ | ⟨-, heq⟩
    · rw [heq]
      exact hinv.with_mem_inq hinv.mem_wf rest
    · rw [heq]
      exact hinv
  · exact hinv.with_mem_inq hinv.mem_wf (s.inq ++ [b])

/-- Settles O56: the invariant fixes the reserved bit of the sum. -/
theorem statusByteIsItsFlagsAndTheReservedBit : Obligations.StatusByteIsItsFlagsAndTheReservedBit := by
  intro s hinv hrun
  obtain ⟨-, ⟨-, -, hrest⟩, -⟩ := hinv
  obtain ⟨-, hreserved, -⟩ := hrest hrun
  have hsum := toNat_status s.p
  rw [hreserved] at hsum
  exact hsum

end Sys2Proof
end

section
/-!
Two machines that agree on what instructions read step alike: each operation on the state keeps the agreement, and a meaning is
made of such operations (spec 10_state.md R22, R36; 60_exceptions.md R191).
-/

namespace Sys2Proof.Machine

/-- Two states agree on all that an instruction may read, and on the transactions of the step so far. -/
structure StepAgree (s t : State) : Prop where
  core : CoreAgree s t
  trace : s.trace = t.trace

section

variable {s t : State}

/-! ### Each operation keeps the agreement of `CoreAgree` -/

theorem CoreAgree.setA (h : CoreAgree s t) (v : Byte) : CoreAgree (s.setA v) (t.setA v) := by
  obtain ⟨hpc, -, hc, hz, hmem, hrun⟩ := h
  exact ⟨hpc, rfl, hc, hz, hmem, hrun⟩

theorem CoreAgree.setPc (h : CoreAgree s t) (v : Addr) : CoreAgree (s.setPc v) (t.setPc v) := by
  obtain ⟨-, ha, hc, hz, hmem, hrun⟩ := h
  exact ⟨rfl, ha, hc, hz, hmem, hrun⟩

theorem CoreAgree.setFlag (h : CoreAgree s t) (f : Flag) (on : Bool) : CoreAgree (s.setFlag f on) (t.setFlag f on) := by
  obtain ⟨hpc, ha, hc, hz, hmem, hrun⟩ := h
  refine ⟨hpc, ha, ?_, ?_, hmem, hrun⟩
  · rw [State.flag_setFlag, State.flag_setFlag, hc]
  · rw [State.flag_setFlag, State.flag_setFlag, hz]

theorem CoreAgree.setZN (h : CoreAgree s t) (v : Byte) : CoreAgree (s.setZN v) (t.setZN v) :=
  (h.setFlag .z (zeroFlag v)).setFlag .n (negativeFlag v)

theorem CoreAgree.writeByte (h : CoreAgree s t) (w : Addr) (v : Byte) :
    CoreAgree (s.writeByte w v) (t.writeByte w v) := by
  obtain ⟨hpc, ha, hc, hz, hmem, hrun⟩ := h
  refine ⟨hpc, ha, hc, hz, fun k => ?_, hrun⟩
  rw [State.readByte_writeByte, State.readByte_writeByte, hmem]

/-- A device write is seen by no instruction. -/
theorem CoreAgree.dispWrite (h : CoreAgree s t) (off : Nat) (v : Byte) :
    CoreAgree (s.dispWrite off v) (t.dispWrite off v) := by
  rw [s.dispWrite_eq off v, t.dispWrite_eq off v]
  exact h

/-! ### Each operation keeps the agreement of `StepAgree` -/

theorem StepAgree.setA (h : StepAgree s t) (v : Byte) : StepAgree (s.setA v) (t.setA v) :=
  ⟨h.core.setA v, h.trace⟩

theorem StepAgree.setFlag (h : StepAgree s t) (f : Flag) (on : Bool) : StepAgree (s.setFlag f on) (t.setFlag f on) :=
  ⟨h.core.setFlag f on, h.trace⟩

theorem StepAgree.setZN (h : StepAgree s t) (v : Byte) : StepAgree (s.setZN v) (t.setZN v) :=
  ⟨h.core.setZN v, h.trace⟩

theorem StepAgree.setPc (h : StepAgree s t) (v : Addr) : StepAgree (s.setPc v) (t.setPc v) :=
  ⟨h.core.setPc v, h.trace⟩

theorem StepAgree.noteAccess (h : StepAgree s t) (a : Access) : StepAgree (s.noteAccess a) (t.noteAccess a) :=
  ⟨h.core, congrArg (· ++ [a]) h.trace⟩

theorem StepAgree.perform (h : StepAgree s t) (a : Access) : StepAgree (s.perform a) (t.perform a) := by
  obtain ⟨hcore, htrace⟩ := h
  cases a with
  | memRead w v => exact ⟨hcore, htrace⟩
  | memWrite w v => exact ⟨hcore.writeByte w v, htrace⟩
  | portWrite p v => exact ⟨hcore, htrace⟩
  | dispWrite off v =>
    refine ⟨hcore.dispWrite off.toNat v, ?_⟩
    rw [State.perform_trace, State.perform_trace, htrace]

theorem StepAgree.busWrite (h : StepAgree s t) (w : Addr) (v : Byte) : StepAgree (s.busWrite w v) (t.busWrite w v) :=
  (h.perform (.memWrite w v)).noteAccess (.memWrite w v)

theorem StepAgree.storeDispatch (h : StepAgree s t) (addr : Addr) (v : Byte) :
    StepAgree (s.storeDispatch addr v) (t.storeDispatch addr v) := by
  rw [s.storeDispatch_eq, t.storeDispatch_eq]
  exact (h.perform _).noteAccess _

theorem StepAgree.answerOk (h : StepAgree s t) (e : CycEntry) : StepAgree (s.answerOk e) (t.answerOk e) :=
  ⟨h.core, h.trace⟩

theorem StepAgree.arith (h : StepAgree s t) (r : Byte) (carry overflow : Bool) (e : CycEntry) :
    StepAgree (s.arith r carry overflow e) (t.arith r carry overflow e) :=
  ((((h.setFlag .c carry).setFlag .v overflow).setA r).setZN r).answerOk e

theorem StepAgree.signalHalt (h : StepAgree s t) : StepAgree s.signalHalt t.signalHalt := by
  obtain ⟨⟨hpc, ha, hc, hz, hmem, -⟩, htrace⟩ := h
  exact ⟨⟨hpc, ha, hc, hz, hmem, rfl⟩, htrace⟩

theorem StepAgree.raiseDecodeFailure (h : StepAgree s t) (b : Byte) :
    StepAgree (s.raiseDecodeFailure b) (t.raiseDecodeFailure b) := by
  obtain ⟨⟨hpc, ha, hc, hz, hmem, -⟩, htrace⟩ := h
  exact ⟨⟨hpc, ha, hc, hz, hmem, rfl⟩, htrace⟩

/-! ### Instructions and steps -/

/-- Two outcomes that are next states in agreement. -/
def NextAgree (o o' : Host.Outcome State Fault Refusal) : Prop :=
  ∃ s' t', o = .next s' ∧ o' = .next t' ∧ StepAgree s' t'

theorem StepAgree.next (h : StepAgree s t) : NextAgree (.next s) (.next t) := ⟨s, t, rfl, rfl, h⟩

/-- An instruction executed in agreeing states. -/
theorem StepAgree.exec (h : StepAgree s t) (i : Instr) : NextAgree (exec i s) (exec i t) := by
  obtain ⟨hpc, ha, hc, hz, hmem, -⟩ := h.core
  cases i with
  | ldaImm imm => exact (((h.setA imm).setZN imm).answerOk .ldaImm).next
  | ldaZp zp =>
    rw [exec_ldaZp, exec_ldaZp, hmem]
    exact ((((h.noteAccess _).setA _).setZN _).answerOk .ldaZp).next
  | staZp zp =>
    rw [exec_staZp, exec_staZp, ha]
    exact ((h.busWrite _ _).answerOk .staZp).next
  | staAbs addr =>
    rw [exec_staAbs, exec_staAbs, ha]
    exact ((h.storeDispatch _ _).answerOk .staAbs).next
  | adcImm imm =>
    rw [exec_adcImm_eq_arith, exec_adcImm_eq_arith, ha, hc]
    exact (h.arith _ _ _ .adcImm).next
  | sbcImm imm =>
    rw [exec_sbcImm_eq_arith, exec_sbcImm_eq_arith, ha, hc]
    exact (h.arith _ _ _ .sbcImm).next
  | incZp zp =>
    rw [exec_incZp, exec_incZp, hmem]
    exact ((((h.noteAccess _).busWrite _ _).setZN _).answerOk .incZp).next
  | cmpImm imm =>
    rw [exec_cmpImm, exec_cmpImm, ha]
    exact (((h.setZN _).setFlag .c _).answerOk .cmpImm).next
  | bne rel =>
    cases hzs : s.flag .z with
    | true =>
      rw [exec_bne_not_taken s rel hzs, exec_bne_not_taken t rel (hz ▸ hzs)]
      exact (h.answerOk .bneNotTaken).next
    | false =>
      rw [exec_bne_taken s rel hzs, exec_bne_taken t rel (hz ▸ hzs), hpc]
      exact ((h.setPc _).answerOk .bneTaken).next
  | sec => exact ((h.setFlag .c true).answerOk .sec).next
  | hlt => exact h.signalHalt.next

theorem CoreAgree.codeByte (h : CoreAgree s t) (k : Nat) : s.codeByte k = t.codeByte k := by
  obtain ⟨hpc, -, -, -, hmem, -⟩ := h
  rw [State.codeByte, hpc, hmem, State.codeByte]

/-- The fetches read the same bytes at the same addresses. -/
theorem CoreAgree.fetched_trace (h : CoreAgree s t) (n : Nat) : (s.fetched n).trace = (t.fetched n).trace := by
  have hbyte : s.codeByte = t.codeByte := funext h.codeByte
  obtain ⟨hpc, -⟩ := h
  simp only [State.fetched, hpc, hbyte]

theorem CoreAgree.fetched (h : CoreAgree s t) (n : Nat) : StepAgree (s.fetched n) (t.fetched n) := by
  have htrace := h.fetched_trace n
  obtain ⟨hpc, ha, hc, hz, hmem, hrun⟩ := h
  exact ⟨⟨congrArg (· + BitVec.ofNat 16 n) hpc, ha, hc, hz, hmem, hrun⟩, htrace⟩

/-- The decoder reads the same instruction at PC. -/
theorem CoreAgree.codeWindow (h : CoreAgree s t) : s.codeWindow = t.codeWindow := by
  simp only [State.codeWindow, h.codeByte]

/-- A stopped machine's step renews the trace alone of what `StepAgree` looks at. -/
theorem CoreAgree.stepHalted (h : CoreAgree s t) : StepAgree s.stepHalted t.stepHalted := ⟨h, rfl⟩

theorem CoreAgree.stepFaulted (h : CoreAgree s t) (b : Byte) : StepAgree (s.stepFaulted b) (t.stepFaulted b) := ⟨h, rfl⟩

/-- Agreeing machines step into agreeing machines, with one answer: that of an instruction depends on Z alone. -/
theorem CoreAgree.step {s' : State} (h : CoreAgree s t) (hstep : step s = .next s') :
    ∃ t', Machine.step t = .next t' ∧ StepAgree s' t' ∧ s'.answer = t'.answer := by
  obtain ⟨-, -, -, hz, -, hrunEq⟩ := id h
  cases step_eq_next_iff.mp hstep with
  | @executes i rest _ hrun hdec hexec =>
    obtain ⟨_, t', hs', ht', hagree⟩ := (h.fetched (encode i).length).exec i
    obtain rfl := Host.Outcome.next.inj (hs'.symm.trans hexec)
    have hstep' := step_of_decode (hrunEq ▸ hrun) (h.codeWindow ▸ hdec)
    refine ⟨t', hstep'.trans ht', hagree, ?_⟩
    rw [(exec_executed hexec).answer, (exec_executed ht').answer, State.fetched_flag, State.fetched_flag, hz]
  | fails hrun hlen =>
    rw [h.codeByte] at hlen ⊢
    exact ⟨_, step_of_opcodeLength_eq_none (hrunEq ▸ hrun) hlen, (h.fetched 1).raiseDecodeFailure _, rfl⟩
  | staysHalted hrun => exact ⟨_, step_halted t (hrunEq ▸ hrun), h.stepHalted, rfl⟩
  | staysFaulted hrun => exact ⟨_, step_faulted t (hrunEq ▸ hrun), h.stepFaulted _, rfl⟩

end

end Sys2Proof.Machine

namespace Sys2Proof

open Machine

/-- Settles O43: the agreement is a relational invariant of the step. -/
theorem stepReadsOnlyPcACarryZeroAndMemory : Obligations.StepReadsOnlyPcACarryZeroAndMemory := by
  intro s t s' hagree hstep
  obtain ⟨t', hstep', ⟨hcore, htrace⟩, hanswer⟩ := hagree.step hstep
  exact ⟨t', hstep', hcore, hanswer, htrace⟩

end Sys2Proof
end

section
/-!
The arithmetic of ADC, SBC and CMP on bytes: the equivalent forms of carry and overflow, and subtraction as the addition of the
complement (spec 41_arithmetic.md R125, R126, R130, R131, R139, R140).
-/

namespace Sys2Proof.Machine

variable (a m : Byte) (c : Bool)

/-- A byte as a signed number, by its sign bit (00_scope.md R11). -/
theorem toInt_eq_of_sign (v : Byte) : v.toInt = if v.getLsbD 7 = true then (v.toNat : Int) - 256 else v.toNat := by
  simp only [getLsbD_seven, decide_eq_true_eq, BitVec.toInt_eq_toNat_cond]
  split <;> split <;> omega

/-! ### Overflow of an addition -/

theorem adcOverflow_iff_signs :
    adcOverflow a m c = true ↔ a.getLsbD 7 = m.getLsbD 7 ∧ (adcResult a m c).getLsbD 7 ≠ a.getLsbD 7 := by
  rw [adcOverflow, Bool.and_eq_true, beq_iff_eq, bne_iff_ne]

/-- The sign rule as one bit of a word (41_arithmetic.md R126). -/
theorem adcOverflow_eq_bit (a m : Byte) (c : Bool) :
    adcOverflow a m c = (~~~(a ^^^ m) &&& (a ^^^ adcResult a m c)).getLsbD 7 := by
  rw [adcOverflow, BitVec.getLsbD_and, BitVec.getLsbD_not, BitVec.getLsbD_xor, BitVec.getLsbD_xor]
  cases a.getLsbD 7 <;> cases m.getLsbD 7 <;> cases (adcResult a m c).getLsbD 7 <;> rfl

/-- The sign rule says that the signed sum has no byte (41_arithmetic.md R126). -/
theorem adcOverflow_iff_range :
    adcOverflow a m c = true ↔
      (a.toInt + m.toInt + (c.toNat : Int) < -128 ∨ 127 < a.toInt + m.toInt + (c.toNat : Int)) := by
  have hr := adcResult_toNat a m c
  have ha : a.toNat < 256 := a.isLt
  have hm : m.toNat < 256 := m.isLt
  have hc : c.toNat ≤ 1 := Bool.toNat_le c
  rw [adcSum] at hr
  rw [adcOverflow_iff_signs, toInt_eq_of_sign, toInt_eq_of_sign]
  simp only [getLsbD_seven, ne_eq, decide_eq_decide, decide_eq_true_eq]
  split <;> split <;> omega

/-! ### Subtraction is the addition of the complement -/

theorem toNat_complement : (m ^^^ 0xFF#8).toNat = 255 - m.toNat := by
  have hnot : m ^^^ 0xFF#8 = ~~~m := BitVec.xor_allOnes
  rw [hnot, BitVec.toNat_not]

theorem sign_complement : (m ^^^ 0xFF#8).getLsbD 7 = !m.getLsbD 7 := by
  rw [BitVec.getLsbD_xor]
  exact Bool.xor_true _

theorem toInt_complement : (m ^^^ 0xFF#8).toInt = -m.toInt - 1 := by
  have hm : m.toNat < 256 := m.isLt
  rw [toInt_eq_of_sign, toInt_eq_of_sign, sign_complement, toNat_complement]
  cases m.getLsbD 7
  · simp only [Bool.not_false, if_true, Bool.false_eq_true, if_false]
    omega
  · simp only [Bool.not_true, if_true, Bool.false_eq_true, if_false]
    omega

/-- The difference lies 256 below the sum with the complement (41_arithmetic.md R131). -/
theorem sbcDiff_eq : sbcDiff a m c = (adcSum a (m ^^^ 0xFF#8) c : Int) - 256 := by
  have hm : m.toNat < 256 := m.isLt
  rw [sbcDiff, adcSum, toNat_complement]
  omega

theorem sbcResult_eq : sbcResult a m c = adcResult a (m ^^^ 0xFF#8) c := by
  apply BitVec.eq_of_toNat_eq
  have hdiff := sbcResult_toNat a m c
  rw [sbcDiff_eq] at hdiff
  rw [adcResult_toNat]
  omega

theorem sbcCarry_eq : sbcCarry a m c = adcCarry a (m ^^^ 0xFF#8) c := by
  rw [sbcCarry, adcCarry, decide_eq_decide, sbcDiff_eq]
  omega

theorem sbcOverflow_eq : sbcOverflow a m c = adcOverflow a (m ^^^ 0xFF#8) c := by
  rw [sbcOverflow, adcOverflow, sbcResult_eq, sign_complement]
  cases a.getLsbD 7 <;> cases m.getLsbD 7 <;> rfl

theorem sbcOverflow_iff_signs :
    sbcOverflow a m c = true ↔ a.getLsbD 7 ≠ m.getLsbD 7 ∧ (sbcResult a m c).getLsbD 7 ≠ a.getLsbD 7 := by
  rw [sbcOverflow, Bool.and_eq_true, bne_iff_ne, bne_iff_ne]

theorem sbcOverflow_eq_bit :
    sbcOverflow a m c = ((a ^^^ m) &&& (a ^^^ sbcResult a m c)).getLsbD 7 := by
  rw [sbcOverflow, BitVec.getLsbD_and, BitVec.getLsbD_xor, BitVec.getLsbD_xor]
  cases a.getLsbD 7 <;> cases m.getLsbD 7 <;> cases (sbcResult a m c).getLsbD 7 <;> rfl

theorem sbcOverflow_iff_range :
    sbcOverflow a m c = true ↔
      (a.toInt - m.toInt - (1 - (c.toNat : Int)) < -128 ∨ 127 < a.toInt - m.toInt - (1 - (c.toNat : Int))) := by
  rw [sbcOverflow_eq, adcOverflow_iff_range, toInt_complement]
  omega

/-! ### Comparison is subtraction with the carry set -/

theorem sbcResult_true : sbcResult a m true = cmpResult a m := by
  simp [sbcResult, cmpResult, sbcDiff]

theorem sbcCarry_true : sbcCarry a m true = cmpCarry a m := by
  rw [sbcCarry, cmpCarry, decide_eq_decide, sbcDiff, Bool.toNat_true]
  omega

/-- The zero flag of a byte says that the byte is 0. -/
theorem zeroFlag_eq_true_iff {v : Byte} : zeroFlag v = true ↔ v = 0#8 := decide_eq_true_iff

end Sys2Proof.Machine
end

section
/-!
Each instruction: its result, its flags and its frame (spec 40_load_store.md, 41_arithmetic.md, 42_control.md).
-/

namespace Sys2Proof.Machine

variable {s t : State}

/-! ### Frames -/

/-- An instruction that is no branch, no halt and no absolute store leaves all that only those may change. -/
theorem exec_sameElsewhere {i : Instr} (h : exec i s = .next t) (hbne : ∀ rel, i ≠ .bne rel) (hhlt : i ≠ .hlt)
    (hsta : ∀ addr, i ≠ .staAbs addr) : SameElsewhere s t := by
  have hpc : pcAfter i s = s.pc := by
    cases i with
    | bne rel => exact absurd rfl (hbne rel)
    | _ => rfl
  exact (exec_executed h).sameElsewhere hpc (runAfter_of_ne_hlt hhlt s.run) (exec_devices_of_not_staAbs s hsta h)

/-- An instruction that makes no data access leaves every byte of raw memory and adds nothing to the trace. -/
theorem sameMemory_trace_of_no_access {i : Instr} (h : exec i s = .next t) (hacc : dataAccesses i s = []) :
    SameMemory s t ∧ t.trace = s.trace := by
  have hdone := exec_executed h
  have hboard := hdone.board
  have htrace := hdone.trace
  rw [hacc] at hboard htrace
  refine ⟨fun k => ?_, htrace.trans (List.append_nil _)⟩
  have hmem : t.mem = s.mem := congrArg Board.mem hboard
  rw [State.readByte, hmem, State.readByte]

/-! ### The three targets of the absolute store -/

section

variable (s : State) (addr : Addr) (v : Byte) (e : CycEntry)

theorem storeDispatch_raw_frame (h : addr.toNat < 0x4000 ∨ 0x6000 ≤ addr.toNat) :
    ((s.storeDispatch addr v).answerOk e).readByte addr = v ∧
    SameMemoryBut addr s ((s.storeDispatch addr v).answerOk e) ∧
    SameDisplay s ((s.storeDispatch addr v).answerOk e) ∧ SameIo s ((s.storeDispatch addr v).answerOk e) ∧
    ((s.storeDispatch addr v).answerOk e).trace = s.trace ++ [.memWrite addr v] := by
  rcases s.storeDispatch_cases addr v with ⟨hlow, hhigh, -⟩ | ⟨hlow, hhigh, -⟩ | ⟨-, heq⟩
  · omega
  · omega
  · rw [heq]
    refine ⟨?_, fun k hk => ?_, ⟨rfl, rfl⟩, ⟨rfl, rfl, rfl, rfl⟩, rfl⟩
    · rw [State.answerOk_readByte, State.readByte_busWrite, if_pos rfl]
    · rw [State.answerOk_readByte, State.readByte_busWrite, if_neg hk]

/-- What a display write leaves, dropped out of range (60_exceptions.md R180, R182). -/
theorem dispWrite_frame (off : Nat) (a : Access) :
    SameMemory s (((s.dispWrite off v).noteAccess a).answerOk e) ∧
    SameIo s (((s.dispWrite off v).noteAccess a).answerOk e) ∧
    (((s.dispWrite off v).noteAccess a).answerOk e).trace = s.trace ++ [a] ∧
    (∀ k, k ≠ off → (((s.dispWrite off v).noteAccess a).answerOk e).disp.read k = s.disp.read k) ∧
    (off < Config.dispCells → (((s.dispWrite off v).noteAccess a).answerOk e).disp.read off = v ∧
      (((s.dispWrite off v).noteAccess a).answerOk e).dirty = true) ∧
    (Config.dispCells ≤ off → SameDisplay s (((s.dispWrite off v).noteAccess a).answerOk e)) := by
  refine ⟨s.dispWrite_readByte off v, s.dispWrite_io off v, congrArg (· ++ [a]) (s.dispWrite_trace off v), ?_⟩
  rcases s.dispWrite_cases off v with ⟨hin, heq⟩ | ⟨hout, heq⟩
  · rw [heq]
    exact ⟨fun k hk => DispBuffer.read_write_other s.disp v hk, fun _ => ⟨DispBuffer.read_write_same _ _ _, rfl⟩,
      fun hge => absurd hin (Nat.not_lt.mpr hge)⟩
  · rw [heq]
    exact ⟨fun _ _ => rfl, fun hin => absurd hin hout, fun _ => ⟨rfl, rfl⟩⟩

/-- What a port write leaves (60_exceptions.md R185, R186). -/
theorem portWrite_frame (p : Byte) (a : Access) :
    SameMemory s (((s.portWrite p v).noteAccess a).answerOk e) ∧
    SameDisplay s (((s.portWrite p v).noteAccess a).answerOk e) ∧
    (((s.portWrite p v).noteAccess a).answerOk e).trace = s.trace ++ [a] ∧
    (((s.portWrite p v).noteAccess a).answerOk e).ports.lookup p = some v ∧
    (∀ q, q ≠ p → (((s.portWrite p v).noteAccess a).answerOk e).ports.lookup q = s.ports.lookup q) ∧
    (((s.portWrite p v).noteAccess a).answerOk e).iolog = s.iolog ++ [(p, v)] ∧
    (((s.portWrite p v).noteAccess a).answerOk e).events = s.events ++ portEvents p v :=
  ⟨fun _ => rfl, ⟨rfl, rfl⟩, rfl, PortMap.lookup_set_same _ _ _, fun _ hq => PortMap.lookup_set_other _ _ hq, rfl, rfl⟩

end

/-! ### The flags CMP writes -/

/-- The state after CMP, in the terms of its flags (41_arithmetic.md R139, R140). -/
theorem exec_cmpImm_flags (s : State) (imm : Byte) :
    ∃ t, exec (.cmpImm imm) s = .next t ∧ t.flag .c = cmpCarry s.a imm ∧ t.flag .z = zeroFlag (s.a - imm) ∧
      t.flag .n = negativeFlag (s.a - imm) ∧ t.a = s.a := by
  refine ⟨_, exec_cmpImm s imm, ?_⟩
  rw [cmpResult_eq_sub]
  simp [State.flag_setFlag]

end Sys2Proof.Machine

namespace Sys2Proof

open Machine

/-! ### Loads and stores -/

/-- Settles O12: A and `SetZN` of the operand; without a data access no byte of memory can change. -/
theorem ldaImmLoadsItsOperand : Obligations.LdaImmLoadsItsOperand := by
  intro imm s
  have hexec := exec_ldaImm s imm
  obtain ⟨hz, hn, hflags⟩ := flags_after_load (s := s) (u := s) rfl imm .ldaImm
  obtain ⟨hmem, htrace⟩ := sameMemory_trace_of_no_access hexec rfl
  exact ⟨_, hexec, rfl, hz, hn, hflags, exec_sameElsewhere hexec nofun nofun nofun, hmem, htrace,
    (exec_executed hexec).answer⟩

/-- Settles O13: the read is noted and changes no byte. -/
theorem ldaZpLoadsFromZeroPage : Obligations.LdaZpLoadsFromZeroPage := by
  intro zp s
  have hexec := exec_ldaZp s zp
  obtain ⟨hz, hn, hflags⟩ :=
    flags_after_load (s := s) (u := s.noteAccess (.memRead (zpAddr zp) (s.readByte (zpAddr zp)))) rfl
      (s.readByte (zpAddr zp)) .ldaZp
  have htrace := (exec_executed hexec).trace
  rw [← zpAddr_eq]
  exact ⟨_, _, hexec, rfl, rfl, hz, hn, hflags, exec_sameElsewhere hexec nofun nofun nofun, fun _ => rfl, htrace,
    (exec_executed hexec).answer⟩

/-- Settles O14: the write sets the byte at the zero-page address and no other. -/
theorem staZpStoresToZeroPage : Obligations.StaZpStoresToZeroPage := by
  intro zp s
  have hexec := exec_staZp s zp
  refine ⟨_, hexec, zpAddr_eq zp, ?_, fun k hk => ?_, rfl, rfl, exec_sameElsewhere hexec nofun nofun nofun,
    (exec_executed hexec).trace, (exec_executed hexec).answer⟩
  · rw [State.answerOk_readByte, State.readByte_busWrite, if_pos rfl]
  · rw [State.answerOk_readByte, State.readByte_busWrite, if_neg hk]

/-- Settles O15, by the three targets of the dispatcher. -/
theorem staAbsStoresByAddressMap : Obligations.StaAbsStoresByAddressMap := by
  intro addr s
  obtain ⟨hpc, hsp, ha, hx, hy, hp, hrun, hinq, -⟩ := s.storeDispatch_rest addr s.a
  refine ⟨_, exec_staAbs s addr, ha, hp, hpc, hrun, ⟨hx, hy, hsp⟩, hinq, State.answerOk_answer _ _,
    storeDispatch_raw_frame s addr s.a .staAbs, fun hdisp => ?_, fun hport => ?_⟩
  · rcases s.storeDispatch_cases addr s.a with ⟨-, -, heq⟩ | ⟨hlow, -, -⟩ | ⟨hout, -⟩
    · rw [heq]
      exact dispWrite_frame s s.a .staAbs _ _
    · omega
    · omega
  · rcases s.storeDispatch_cases addr s.a with ⟨-, hhigh, -⟩ | ⟨-, -, heq⟩ | ⟨hout, -⟩
    · omega
    · rw [heq]
      refine ⟨BitVec.ofNat 8 (addr.toNat - 0x5000), BitVec.toNat_ofNat _ _, ?_⟩
      generalize BitVec.ofNat 8 (addr.toNat - 0x5000) = p
      obtain ⟨hmem, hdisplay, htrace, hsame, hother, hlog, hevents⟩ := portWrite_frame s s.a .staAbs p (.portWrite p s.a)
      rw [portEvents_eq] at hevents
      refine ⟨hmem, hdisplay, htrace, hsame, hother, hlog, fun h0 => ?_, fun h1 => ?_, fun h2 => ?_⟩
      · rw [hevents, if_pos h0]
      · rw [hevents, if_neg (by omega), if_pos h1]
      · rw [hevents, if_neg (by omega), if_neg (by omega), List.append_nil]
    · omega

/-! ### Arithmetic -/

/-- Settles O16: C and V are those of the exact sum, Z and N those of the new A. -/
theorem adcImmAddsWithCarry : Obligations.AdcImmAddsWithCarry := by
  intro imm s
  have hexec := exec_adcImm_eq_arith s imm
  obtain ⟨hmem, htrace⟩ := sameMemory_trace_of_no_access hexec rfl
  refine ⟨_, hexec, ?_⟩
  simp only [State.arith_a, State.arith_flag_c, State.arith_flag_v, State.arith_flag_z, State.arith_flag_n]
  exact ⟨adcResult_toNat _ _ _, decide_eq_true_iff, adcOverflow_iff_signs _ _ _, adcOverflow_eq_bit _ _ _,
    adcOverflow_iff_range _ _ _, zeroFlag_iff _, negativeFlag_iff _, sameFlagsBut_arith s _ _ _ _,
    exec_sameElsewhere hexec nofun nofun nofun, hmem, htrace, (exec_executed hexec).answer⟩

/-- Settles O17: the result and the flags are those of ADC with the complement, and so is the range of the overflow. -/
theorem sbcImmSubtractsWithBorrow : Obligations.SbcImmSubtractsWithBorrow := by
  intro imm s
  have hexec := exec_sbcImm_eq_arith s imm
  obtain ⟨hmem, htrace⟩ := sameMemory_trace_of_no_access hexec rfl
  refine ⟨_, hexec, ?_⟩
  simp only [State.arith_a, State.arith_flag_c, State.arith_flag_v, State.arith_flag_z, State.arith_flag_n]
  refine ⟨sbcResult_toNat _ _ _, decide_eq_true_iff, sbcOverflow_iff_signs _ _ _, sbcOverflow_eq_bit _ _ _,
    sbcOverflow_iff_range _ _ _, zeroFlag_iff _, negativeFlag_iff _,
    ⟨_, exec_adcImm_eq_arith s (imm ^^^ 0xFF#8), sbcResult_eq _ _ _, ?_⟩, sameFlagsBut_arith s _ _ _ _,
    exec_sameElsewhere hexec nofun nofun nofun, hmem, htrace, (exec_executed hexec).answer⟩
  rw [sbcResult_eq, sbcCarry_eq, sbcOverflow_eq]
  rfl

/-- Settles O18: the byte read is written back one higher, and Z and N are of the byte written. -/
theorem incZpIncrementsZeroPage : Obligations.IncZpIncrementsZeroPage := by
  intro zp s
  have hexec := exec_incZp s zp
  refine ⟨_, incResult (s.readByte (zpAddr zp)), hexec, zpAddr_eq zp, incResult_toNat _, ?_, fun k hk => ?_, by simp,
    ?_, ?_, exec_flags hexec, exec_sameElsewhere hexec nofun nofun nofun, ?_, (exec_executed hexec).answer⟩
  · rw [State.answerOk_readByte, State.setZN_readByte, State.readByte_busWrite, if_pos rfl]
  · rw [State.answerOk_readByte, State.setZN_readByte, State.readByte_busWrite, if_neg hk, State.noteAccess_readByte]
  · rw [State.answerOk_flag, State.flag_setZN_z, zeroFlag_iff]
  · rw [State.answerOk_flag, State.flag_setZN_n, negativeFlag_iff]
  · rw [incResult_eq]
    exact (exec_executed hexec).trace

/-- Settles O19: the difference is that of SBC with the carry set, and it is 0 exactly for equal bytes. -/
theorem cmpImmComparesUnsigned : Obligations.CmpImmComparesUnsigned := by
  intro imm s
  obtain ⟨t, hexec, hc, hz, hn, ha⟩ := exec_cmpImm_flags s imm
  obtain ⟨hmem, htrace⟩ := sameMemory_trace_of_no_access hexec rfl
  refine ⟨t, hexec, ha, ?_, ?_, ?_, ?_, ⟨_, exec_sbcImm_eq_arith (s.setFlag .c true) imm, ?_⟩, exec_flags hexec,
    exec_sameElsewhere hexec nofun nofun nofun, hmem, htrace, (exec_executed hexec).answer⟩
  · rw [hc]
    exact decide_eq_true_iff
  · rw [hz, zeroFlag_iff]
  · rw [hn, negativeFlag]
  · rw [hz, zeroFlag_eq_true_iff]
    exact sub_eq_zero
  · rw [State.flag_setFlag_same, sbcCarry_true, sbcResult_true, cmpResult_eq_sub]
    exact ⟨by rw [hc, State.arith_flag_c]; rfl, by rw [hz, State.arith_flag_z]; rfl, by rw [hn, State.arith_flag_n]; rfl⟩

/-! ### Control -/

/-- Settles O20, by the zero flag. -/
theorem bneBranchesWhenZeroIsClear : Obligations.BneBranchesWhenZeroIsClear := by
  intro rel s
  cases hz : s.flag .z with
  | true => exact ⟨_, exec_bne_not_taken s rel hz, rfl, nofun, fun _ => ⟨rfl, rfl⟩⟩
  | false => exact ⟨_, exec_bne_taken s rel hz, rfl, fun _ => ⟨toNat_branchTarget s.pc rel, rfl⟩, nofun⟩

/-- Settles O22: the halt signal is all that HLT does. -/
theorem hltHalts : Obligations.HltHalts := fun s => exec_hlt s

end Sys2Proof
end

section
/-!
The arithmetic and control instructions as whole steps (spec 41_arithmetic.md R125, R130, R135, R139; 42_control.md R155, R160,
R163), and the source's worked examples.
-/

namespace Sys2Proof.Machine

variable {s : State}

/-- The state past an opcode without operand bytes. -/
theorem State.fetched_one {op : Byte} (hop : s.codeByte 0 = op) :
    s.fetched 1 = { s with pc := s.pc + 1#16, trace := [.memRead s.pc op] } := by
  subst hop
  simp [State.fetched]

/-- A step of ADC or SBC, past its two bytes: the flags by the result, and nothing else. -/
theorem arith_fetched_two {op : Byte} (hop : s.codeByte 0 = op) (r : Byte) (carry overflow : Bool) (e : CycEntry) :
    (s.fetched 2).arith r carry overflow e =
      { s with
        a := r
        p := ((s.fetched 2).arith r carry overflow e).p
        pc := s.pc + 2#16
        trace := [.memRead s.pc op, .memRead (s.pc + 1#16) (s.codeByte 1)]
        answer := some (.ok (Config.cyc e)) } := by
  rw [State.arith_eq, State.fetched_two hop]

/-- Z and N after ADC or SBC, of the new A (41_arithmetic.md R120). -/
theorem arith_zeroNegative (s : State) (r : Byte) (carry overflow : Bool) (e : CycEntry) :
    ((s.arith r carry overflow e).flag .z = true ↔ (s.arith r carry overflow e).a = 0#8) ∧
    (s.arith r carry overflow e).flag .n = (s.arith r carry overflow e).a.getLsbD 7 := by
  rw [State.arith_flag_z, State.arith_flag_n, State.arith_a]
  exact ⟨zeroFlag_eq_true_iff, rfl⟩

/-- A step of INC: the byte written back, the flags of it, and nothing else. -/
theorem incZp_fetched_two (hop : s.codeByte 0 = 0xE6#8) (ea : Addr) (v w : Byte) (e : CycEntry) :
    ((((s.fetched 2).noteAccess (.memRead ea v)).busWrite ea w).setZN w).answerOk e =
      { s with
        mem := s.mem.write ea w
        p := (s.setZN w).p
        pc := s.pc + 2#16
        trace := [.memRead s.pc 0xE6#8, .memRead (s.pc + 1#16) (s.codeByte 1), .memRead ea v, .memWrite ea w]
        answer := some (.ok (Config.cyc e)) } := by
  rw [incZp_eq, State.fetched_two hop]
  rfl

end Sys2Proof.Machine

namespace Sys2Proof

open Machine

/-- Settles O25: each step is its fetches and its meaning; ADC and SBC end alike, with the flags of their exact results. -/
theorem arithmeticStepsFollowTheirPseudocode : Obligations.ArithmeticStepsFollowTheirPseudocode := by
  intro s hrun
  refine ⟨fun hop => ?_, fun hop => ?_, fun hop => ?_, fun hop => ?_⟩
  · have hstep : step s = exec (.adcImm (s.codeByte 1)) (s.fetched 2) := step_of_opcode .addWithCarryImmediate hrun hop
    rw [exec_adcImm_eq_arith] at hstep
    obtain ⟨hz, hn⟩ := arith_zeroNegative (s.fetched 2) (adcResult s.a (s.codeByte 1) (s.flag .c))
      (adcCarry s.a (s.codeByte 1) (s.flag .c)) (adcOverflow s.a (s.codeByte 1) (s.flag .c)) .adcImm
    refine ⟨_, _, hstep, rfl, ?_, ?_, hz, hn, sameFlagsBut_arith (s.fetched 2) _ _ _ _, arith_fetched_two hop _ _ _ _⟩
    · rw [State.arith_flag_c]
      exact decide_eq_true_iff
    · rw [State.arith_flag_v, State.arith_a]
      rfl
  · have hstep : step s = exec (.sbcImm (s.codeByte 1)) (s.fetched 2) :=
      step_of_opcode .subtractWithCarryImmediate hrun hop
    rw [exec_sbcImm_eq_arith] at hstep
    obtain ⟨hz, hn⟩ := arith_zeroNegative (s.fetched 2) (sbcResult s.a (s.codeByte 1) (s.flag .c))
      (sbcCarry s.a (s.codeByte 1) (s.flag .c)) (sbcOverflow s.a (s.codeByte 1) (s.flag .c)) .sbcImm
    refine ⟨_, _, hstep, rfl, ?_, ?_, hz, hn, sameFlagsBut_arith (s.fetched 2) _ _ _ _, arith_fetched_two hop _ _ _ _⟩
    · rw [State.arith_flag_c]
      exact decide_eq_true_iff
    · rw [State.arith_flag_v, State.arith_a]
      rfl
  · have hstep : step s = exec (.incZp (s.codeByte 1)) (s.fetched 2) := step_of_opcode .incrementZeroPage hrun hop
    have hflags := exec_flags (exec_incZp (s.fetched 2) (s.codeByte 1))
    rw [exec_incZp, State.fetched_readByte, incResult_eq] at hstep
    rw [State.fetched_readByte, incResult_eq] at hflags
    refine ⟨_, zpAddr (s.codeByte 1), s.readByte (zpAddr (s.codeByte 1)) + 1, hstep, toNat_zpAddr _, rfl, ?_,
      fun k hk => ?_, ?_, ?_, hflags, ?_⟩
    · rw [State.answerOk_readByte, State.setZN_readByte, State.readByte_busWrite, if_pos rfl]
    · rw [State.answerOk_readByte, State.setZN_readByte, State.readByte_busWrite, if_neg hk, State.noteAccess_readByte,
        State.fetched_readByte]
    · rw [State.answerOk_flag, State.flag_setZN_z, zeroFlag_eq_true_iff]
    · rw [State.answerOk_flag, State.flag_setZN_n, negativeFlag]
    · rw [incZp_fetched_two hop]
  · have hstep : step s = exec (.cmpImm (s.codeByte 1)) (s.fetched 2) := step_of_opcode .compareImmediate hrun hop
    have hflags := exec_flags (exec_cmpImm (s.fetched 2) (s.codeByte 1))
    rw [exec_cmpImm, State.fetched_a, cmpResult_eq_sub] at hstep
    rw [State.fetched_a, cmpResult_eq_sub] at hflags
    refine ⟨_, s.a - s.codeByte 1, hstep, rfl, ?_, ?_, ?_, hflags, ?_⟩
    · simp [State.flag_setFlag, zeroFlag_eq_true_iff]
    · simp [State.flag_setFlag, negativeFlag]
    · simp [cmpCarry]
    · rw [State.fetched_two hop]
      simp [State.answerOk, State.setZN, State.setFlag]

/-- Settles O26: each step is its fetches and its meaning; the offset is added to the address after the branch. -/
theorem controlStepsFollowTheirPseudocode : Obligations.ControlStepsFollowTheirPseudocode := by
  intro s hrun
  refine ⟨fun hop => ?_, fun hop => ?_, fun hop => ?_⟩
  · have hstep : step s = exec (.bne (s.codeByte 1)) (s.fetched 2) := step_of_opcode .branchIfNotEqual hrun hop
    cases hz : s.flag .z with
    | true =>
      rw [exec_bne_not_taken (s.fetched 2) _ hz] at hstep
      exact ⟨_, hstep, rfl, nofun, fun _ => ⟨rfl, rfl⟩, cyc_bneNotTaken_lt⟩
    | false =>
      rw [exec_bne_taken (s.fetched 2) _ hz] at hstep
      refine ⟨_, hstep, rfl, fun _ => ⟨?_, rfl⟩, nofun, cyc_bneNotTaken_lt⟩
      rw [State.answerOk_pc, State.setPc_pc, toNat_branchTarget, State.fetched_pc, BitVec.toNat_add]
      simp only [BitVec.reduceToNat]
      omega
  · have hstep : step s = exec .sec (s.fetched 1) := step_of_opcode .setCarryFlag hrun hop
    have hflags := exec_flags (exec_sec (s.fetched 1))
    rw [exec_sec] at hstep
    refine ⟨_, hstep, ?_, hflags, ?_⟩
    · rw [State.answerOk_flag, State.flag_setFlag_same]
    · rw [State.fetched_one hop]
      rfl
  · have hstep : step s = exec .hlt (s.fetched 1) := step_of_opcode .halt hrun hop
    rw [hstep, exec_hlt, State.fetched_one hop]
    rfl

/-- Settles O27: the two sums on their literals, and the branch at its address. -/
theorem sourceWorkedExamples : Obligations.SourceWorkedExamples := by
  refine ⟨fun s ha hc => ⟨_, exec_adcImm_eq_arith s _, ?_⟩, fun s ha hc => ⟨_, exec_sbcImm_eq_arith s _, ?_⟩,
    fun s hrun hpc hz hop hrel => ?_⟩
  · simp only [State.arith_a, State.arith_flag_c, State.arith_flag_v, State.arith_flag_z, State.arith_flag_n, ha, hc]
    decide
  · simp only [State.arith_a, State.arith_flag_c, State.arith_flag_v, State.arith_flag_z, State.arith_flag_n, ha, hc]
    decide
  · have hop' : s.codeByte 0 = 0xD0#8 := by rw [s.codeByte_zero, hpc, hop]
    have hrel' : s.codeByte 1 = 0xF3#8 := by
      rw [State.codeByte, hpc]
      exact hrel
    have hstep : step s = exec (.bne (s.codeByte 1)) (s.fetched 2) := step_of_opcode .branchIfNotEqual hrun hop'
    refine ⟨_, hstep.trans (exec_bne_taken (s.fetched 2) _ hz), ?_⟩
    rw [State.answerOk_pc, State.setPc_pc, State.fetched_pc, hpc, hrel']
    decide

end Sys2Proof
end

section
/-!
Raw memory as data, storing programs, the devices, the host's operations and reset (spec 20_memory.md R46, R56;
60_exceptions.md R180 to R190; 70_reset_and_hazards.md R200, R201, R212).
-/

namespace Sys2Proof.Machine

variable (s : State)

/-! ### Canonical memories -/

/-- Rising entries stand in the order of their numbers. -/
theorem pairwise_of_cellsRising {l : List Host.Cell} (h : cellsRising l = true) : l.Pairwise fun c d => c.1 < d.1 := by
  induction l with
  | nil => exact .nil
  | cons c rest ih =>
    obtain ⟨hlow, hrest⟩ := (cellsRising_cons c rest).mp h
    exact .cons hlow (ih hrest)

/-- A rising list is found to hold exactly its entries. -/
theorem cellFind_eq_some_iff {l : List Host.Cell} (h : cellsRising l = true) {k : Nat} {v : Byte} :
    cellFind l k = some v ↔ (k, v) ∈ l := by
  induction l with
  | nil => simp [cellFind]
  | cons c rest ih =>
    obtain ⟨hlow, hrest⟩ := (cellsRising_cons c rest).mp h
    rw [cellFind, List.mem_cons, ← ih hrest]
    split
    next heq =>
      subst heq
      have hno : cellFind rest c.1 ≠ some v := fun hfind =>
        absurd (hlow _ ((ih hrest).mp hfind)) (Nat.lt_irrefl _)
      rw [Option.some.injEq, or_iff_left hno, Prod.ext_iff]
      exact ⟨fun hv => ⟨rfl, hv.symm⟩, fun hc => hc.2.symm⟩
    next hne =>
      have hhead : (k, v) ≠ c := fun he => hne (he ▸ rfl)
      rw [or_iff_right hhead]

/-- The entries of a canonical memory are the bytes that are not zero. -/
theorem Memory.mem_cells_iff {m : Memory} (h : m.wf = true) {k : Nat} {v : Byte} :
    (k, v) ∈ m.cells ↔ k < 65536 ∧ v ≠ memUnlisted ∧ m.read (BitVec.ofNat 16 k) = v := by
  simp only [Memory.wf, Bool.and_eq_true, cellsBelow, cellsListed, List.all_eq_true, decide_eq_true_eq] at h
  obtain ⟨hrising, hbelow, hlisted⟩ := h
  constructor
  · intro hmem
    have hk : k < 65536 := hbelow _ hmem
    refine ⟨hk, hlisted _ hmem, ?_⟩
    rw [Memory.read, cellRead, BitVec.toNat_ofNat, Nat.mod_eq_of_lt hk, (cellFind_eq_some_iff hrising).mpr hmem]
    rfl
  · rintro ⟨hk, hv, hread⟩
    rw [Memory.read, cellRead, BitVec.toNat_ofNat, Nat.mod_eq_of_lt hk] at hread
    cases hfind : cellFind m.cells k with
    | none => exact absurd (hread.symm.trans (by rw [hfind]; rfl)) hv
    | some u =>
      rw [hfind] at hread
      obtain rfl : u = v := hread
      exact (cellFind_eq_some_iff hrising).mp hfind

theorem Memory.ext_of_wf {m m' : Memory} (h : m.wf = true) (h' : m'.wf = true) (hread : ∀ a, m.read a = m'.read a) :
    m = m' := by
  have hmem : ∀ c, c ∈ m.cells ↔ c ∈ m'.cells := by
    rintro ⟨k, v⟩
    rw [Memory.mem_cells_iff h, Memory.mem_cells_iff h', hread]
  have hrising : ∀ {n : Memory}, n.wf = true → n.cells.Pairwise fun c d => c.1 < d.1 := by
    intro n hn
    obtain ⟨hr, -⟩ := (Bool.and_eq_true _ _).mp hn
    exact pairwise_of_cellsRising hr
  have hirrefl : Std.Irrefl fun c d : Host.Cell => c.1 < d.1 := ⟨fun c => Nat.lt_irrefl c.1⟩
  have hcells : m.cells = m'.cells := (hrising h).eq_of_mem_iff (hrising h') hmem
  cases m
  cases m'
  exact congrArg Memory.mk hcells

/-! ### Stored bytes -/

/-- Different offsets below 65536 give different addresses. -/
theorem addr_add_ne (a : Addr) {j k : Nat} (hj : j < 65536) (hk : k < 65536) (h : j ≠ k) :
    a + BitVec.ofNat 16 j ≠ a + BitVec.ofNat 16 k := by
  intro heq
  have hnum : BitVec.ofNat 16 j = BitVec.ofNat 16 k := (BitVec.add_right_inj a).mp heq
  have := congrArg BitVec.toNat hnum
  simp only [BitVec.toNat_ofNat] at this
  omega

/-- Stored bytes read back, where they do not go round the whole address space. -/
theorem State.readByte_storeBytes (a : Addr) (bs : List Byte) (hlen : bs.length ≤ 65536) {j : Nat} (hj : j < bs.length) :
    (s.storeBytes a bs).readByte (a + BitVec.ofNat 16 j) = bs[j] := by
  induction bs generalizing s a j with
  | nil => exact absurd hj (Nat.not_lt_zero j)
  | cons b rest ih =>
    rw [List.length_cons] at hlen hj
    cases j with
    | zero =>
      have hother : ∀ k, k < rest.length → a + BitVec.ofNat 16 0 ≠ a + 1 + BitVec.ofNat 16 k := by
        intro k hk
        have hstep : a + 1 + BitVec.ofNat 16 k = a + BitVec.ofNat 16 (k + 1) := addr_one_add a k
        rw [hstep]
        exact addr_add_ne a (by omega) (by omega) (by omega)
      have hzero : a + BitVec.ofNat 16 0 = a := BitVec.add_zero a
      rw [State.storeBytes, (s.writeByte a b).readByte_storeBytes_other (a + 1) _ rest hother, hzero,
        s.readByte_writeByte_same]
      rfl
    | succ j =>
      have hstep : a + BitVec.ofNat 16 (j + 1) = a + 1 + BitVec.ofNat 16 j := (addr_one_add a j).symm
      rw [State.storeBytes, hstep]
      exact ih (s.writeByte a b) (a + 1) (by omega) (by omega)

/-- The three bytes stored at PC are the bytes at PC, at the top of the space too. -/
theorem State.codeWindow_storeBytes (b0 b1 b2 : Byte) : (s.storeBytes s.pc [b0, b1, b2]).codeWindow = [b0, b1, b2] := by
  have hpc : (s.storeBytes s.pc [b0, b1, b2]).pc = s.pc := by rw [s.storeBytes_eq]
  have hread : ∀ j, (hj : j < 3) → (s.storeBytes s.pc [b0, b1, b2]).codeByte j = [b0, b1, b2][j] := by
    intro j hj
    rw [State.codeByte, hpc]
    exact s.readByte_storeBytes s.pc [b0, b1, b2] (by simp) hj
  rw [State.codeWindow, hread 0 (by decide), hread 1 (by decide), hread 2 (by decide)]
  rfl

/-- The bytes of the placed table word are at PC, and the machine runs (log entry 9). -/
theorem State.withFetchWord_codeWindow (nbits w : Nat) : (s.withFetchWord nbits w).codeWindow = tableBytes nbits w := by
  rw [State.withFetchWord, tableBytes]
  exact s.codeWindow_storeBytes _ _ _

/-! ### The assembler's branch operand -/

theorem sext16_toInt (rel : Byte) : (sext16 rel).toInt = rel.toInt := BitVec.toInt_signExtend_of_le (by decide)

/-- The assembler writes the byte whose signed value is the distance (30_encoding.md R93). -/
theorem branchOperand_eq_some_iff {a target : Addr} {rel : Byte} :
    branchOperand a target = some rel ↔ (target - (a + 2)).toInt = rel.toInt := by
  have hlow : -128 ≤ rel.toInt := BitVec.le_toInt rel
  have hhigh : rel.toInt < 128 := BitVec.toInt_lt
  rw [branchOperand]
  constructor
  · intro h
    split at h
    next hin =>
      obtain rfl := Option.some.inj h
      rw [BitVec.toInt_ofInt_eq_self (by decide) hin.1 (Int.lt_add_one_of_le hin.2)]
    next => cases h
  · intro h
    rw [h, if_pos ⟨hlow, Int.le_of_lt_add_one hhigh⟩, BitVec.ofInt_toInt]

/-- A distance is that of an offset exactly where the branch with the offset reaches the target (30_encoding.md R89). -/
theorem branchTarget_eq_iff {next target : Addr} {rel : Byte} :
    branchTarget next rel = target ↔ (target - next).toInt = rel.toInt := by
  rw [← sext16_toInt, BitVec.toInt_inj, branchTarget]
  constructor
  · rintro rfl
    exact add_sub_cancel_left next (sext16 rel)
  · intro h
    rw [← h, add_sub_cancel]

end Sys2Proof.Machine

namespace Sys2Proof

open Machine

/-- Settles O45: both list the bytes that are not zero, in the order of their addresses. -/
theorem canonicalMemoriesWithEqualBytesAreEqual : Obligations.CanonicalMemoriesWithEqualBytesAreEqual :=
  fun _ _ => Memory.ext_of_wf

/-- Settles O47: where the bytes fit, no two of them have the same address, and no address outside is one of theirs. -/
theorem loadProgramCopiesOrIsRefused : Obligations.LoadProgramCopiesOrIsRefused := by
  intro s bytes start
  rcases s.loadProgram_cases bytes start with ⟨hfits, heq⟩ | ⟨hlong, heq⟩
  · rw [heq]
    refine ⟨s.storeBytes_eq start bytes, fun _ a => ⟨fun k hak hk => ?_, fun hout => ?_⟩, fun hlong => by omega⟩
    · have haddr : a = start + BitVec.ofNat 16 k := by
        apply BitVec.eq_of_toNat_eq
        rw [hak, BitVec.toNat_add, BitVec.toNat_ofNat]
        omega
      rw [haddr]
      exact s.readByte_storeBytes start bytes (by omega) hk
    · refine s.readByte_storeBytes_other start a bytes fun j hj haddr => ?_
      have hnum := congrArg BitVec.toNat haddr
      rw [BitVec.toNat_add, BitVec.toNat_ofNat] at hnum
      omega
  · rw [heq]
    exact ⟨rfl, fun hfits => by omega, fun _ => rfl⟩

/-- Settles O48, by whether the offset is in range. -/
theorem displayWriteIsBoundsChecked : Obligations.DisplayWriteIsBoundsChecked := by
  intro s off v
  rcases s.dispWrite_cases off v with ⟨hin, heq⟩ | ⟨hout, heq⟩
  · rw [heq]
    exact ⟨fun _ => ⟨DispBuffer.read_write_same _ _ _, fun _ hk => DispBuffer.read_write_other _ _ hk, rfl⟩,
      fun hge => absurd hin (Nat.not_lt.mpr hge)⟩
  · exact ⟨fun hin => absurd hin hout, fun _ => heq⟩

/-- Settles O49: the port map by its laws, the events by the port. -/
theorem portWriteRecordsLogsAndEmits : Obligations.PortWriteRecordsLogsAndEmits := by
  intro s p v
  refine ⟨_, rfl, PortMap.lookup_set_same _ _ _, fun q hq => PortMap.lookup_set_other _ _ hq, rfl, ?_, ?_, ?_, rfl⟩
  · rintro rfl
    rfl
  · rintro rfl
    rfl
  · rintro ⟨h0, h1⟩
    rw [State.portWrite_events, portEvents, if_neg h0, if_neg h1, List.append_nil]

/-- Settles O50, by whether the queue holds a byte. -/
theorem portReadDrainsTheQueueFirst : Obligations.PortReadDrainsTheQueueFirst := by
  intro s p
  refine ⟨fun b rest hinq => ?_, fun hempty => ?_, fun b => rfl, fun b hempty => ?_⟩
  · rw [State.readPort, hinq]
  · have hread : s.readPort p = ((s.ports.lookup p).getD 0x00#8, s) := by rw [State.readPort, hempty]
    rw [hread]
    exact ⟨rfl, fun v hv => by rw [hv]; rfl, fun hnone => by rw [hnone]; rfl⟩
  · have hone : (s.enqueueInput b).inq = [b] := by rw [State.enqueueInput_inq, hempty, List.nil_append]
    rw [State.readPort, hone, State.enqueueInput, ← hempty]

/-- Settles O51: the glyph at an offset is that of the cell there. -/
theorem renderShowsPrintableCellsAndChangesNothing : Obligations.RenderShowsPrintableCellsAndChangesNothing := by
  intro s
  refine ⟨rfl, rfl, rfl, rfl, rfl, ?_, fun off hoff => ?_⟩
  · rw [State.render, List.length_map, List.length_range]
  · have hcell : s.render.1[off]? = some (renderByte (s.disp.read off)) := by
      rw [State.render, List.getElem?_map, List.getElem?_range hoff]
      rfl
    rw [hcell, renderByte]
    exact ⟨fun hin => by rw [if_pos hin], fun hout => by rw [if_neg (by omega)]⟩

/-- Settles O52: reset leaves raw memory, so the vector is the same the second time. -/
theorem resetLoadsTheVector : Obligations.ResetLoadsTheVector :=
  fun s => ⟨s.readWord resetVector, toNat_wordOf _ _, rfl, rfl⟩

/-- Settles O54: the vector of zeroed memory is 0x0000. -/
theorem resetStateIsResetOfPowerOn : Obligations.ResetStateIsResetOfPowerOn := ⟨rfl, rfl, rfl, rfl, rfl⟩

/-- Settles O55: a zero byte is no opcode. -/
theorem firstStepWithoutProgramFails : Obligations.FirstStepWithoutProgramFails := by
  refine ⟨fun s hlow hhigh => ?_, fun a => rfl⟩
  have hpc : s.applyReset.pc = 0x0000#16 := by
    have hhigh' : s.readByte (resetVector + 1) = 0x00#8 := hhigh
    rw [State.applyReset_pc, State.readWord, hhigh', resetVector, hlow]
    rfl
  refine ⟨hpc, fun hzero => ?_⟩
  have hbyte : s.applyReset.codeByte 0 = 0x00#8 := by rw [State.codeByte_zero, hpc, State.applyReset_readByte, hzero]
  have hillegal : opcodeLength (s.applyReset.codeByte 0) = none := by
    rw [hbyte]
    decide
  refine ⟨_, step_of_opcodeLength_eq_none rfl hillegal, ?_, ?_⟩
  · rw [State.raiseDecodeFailure_answer, hbyte]
  · rw [State.raiseDecodeFailure_pc, State.fetched_pc, hpc]
    rfl

/-- Settles O60: the decoder reads from the bytes at PC what it reads from the word. -/
theorem placedTableWordIsRunNext : Obligations.PlacedTableWordIsRunNext := by
  intro s nbits w i hword
  have hdec : ∃ rest, decode (s.withFetchWord nbits w).codeWindow = .instr i rest := by
    rw [State.withFetchWord_codeWindow]
    rw [decodeTableWord] at hword
    split at hword
    next j rest hj =>
      obtain rfl := Option.some.inj hword
      exact ⟨rest, hj⟩
    next => cases hword
  obtain ⟨rest, hdec⟩ := hdec
  exact step_of_decode rfl hdec

/-- Settles O28: both sides say that the signed distance is the operand. -/
theorem assembledBranchReachesItsTarget : Obligations.AssembledBranchReachesItsTarget := by
  intro a target
  refine ⟨fun rel h => ?_, fun rel h => ?_⟩
  · exact branchTarget_eq_iff.mpr (branchOperand_eq_some_iff.mp h)
  · exact branchOperand_eq_some_iff.mpr (branchTarget_eq_iff.mp h.symm)

end Sys2Proof
end
